-- ==== Sys2Proof/Word.lean ====
section
/-!
DEFINITION. The word types of the machine (spec 00_scope R5, 10_state R15, R16): values are 16 bits, a byte is 8 bits, a
bundle is 107 bits. No operation stands here; the arithmetic is in Machine/Operands.lean and Machine/Units.lean.
-/

namespace Sys2Proof

/-- A byte of the memory image (R20). -/
abbrev Byte := BitVec 8

/-- An operand, a result or a stored value, "unsigned at rest" (R5). -/
abbrev Word16 := BitVec 16

/-- An opaque reference to a variable (R15, decision D6). -/
abbrev VarRef := BitVec 16

/-- A raw codec token (R25, decision D14). -/
abbrev SymbolUnit := Word16

/-- A character code. The spec's `Char` is an opaque type: no number has a meaning here (R16, decision D13). DESIGN CHOICE,
log 15. -/
abbrev CharCode := Nat

/-- A finite, possibly empty sequence of characters (R16). -/
abbrev Text := List CharCode

/-- The instruction bundle as it stands on the port `i_bundle` (R35, R36). -/
abbrev BundleWord := BitVec 107

end Sys2Proof
end

