-- ==== Sys2Proof/Config.lean ====
section
/-!
DEFINITION. What is fixed for the machine (spec 00_scope R4): the parameters the spec gives a value, the values the model
takes where the spec leaves an argument OPEN, and the configuration functions, which stay free: an `opaque` constant has no
value a proof could use.
-/

namespace Sys2Proof

/-- `PCW`, the width of the program counter: an argument in the spec, with the default 32 (R4, R14, D8). The model fixes it at
the default. DESIGN CHOICE, log 30 (unsafe for a claim that leans on a bound made from it). -/
def Config.pcWidth : Nat := 32

/-- `MAX_OPS`, the operand slots of a bundle (R4, R37). -/
def Config.maxOps : Nat := 4

/-- `SEL0`, the table selector of both codec calls: an argument in the spec, with the default 0 (R4, R80, D15). The model fixes it
at the default. DESIGN CHOICE, log 16 (safe while `Translate` is free). -/
def Config.sel0 : Nat := 0

/-- The largest `MEM_SIZE` that R4 and R14 admit: `2^(PCW-1) - 32768`, for the `PCW` of log 30. -/
def Config.memSizeMax : Nat := 2 ^ (Config.pcWidth - 1) - 32768

/-- `MEM_SIZE` of `State.reset`. OPEN in R4. DESIGN CHOICE, log 4 (unsafe). -/
def Config.resetMemSize : Nat := 1024

/-- `PC_INIT` of `State.reset`. OPEN in R4 and R18. DESIGN CHOICE, log 6 (unsafe). -/
def Config.resetPc : Int := 0

/-- `VAR_INIT`: what a variable holds that no step has written (R18, U5: "a model must not assume zero"). Free, log 7. -/
opaque Config.varInit : VarRef → Word16

/-- `VersionOf(MEM)`: the header's version as a function of the current image (R19, decision D16). Free, log 13. -/
opaque Config.versionOf : List Byte → BitVec 8

/-- `ReadEncodedString(MEM, addr, marker)`: `none` is `OutOfBounds`, else the consumed length and the units (R25, decision
D17). Free, log 13. -/
opaque Config.readString : List Byte → Int → Int → Option (Int × List SymbolUnit)

/-- `Translate(sel, version, units)`: the text codec, total and pure (R80, decision D17). Free, log 13. -/
opaque Config.translate : Nat → BitVec 8 → List SymbolUnit → Text

end Sys2Proof
end

