-- ==== Sys2Proof/Machine/Memory.lean ====
section
/-!
DEFINITION. Sparse maps as plain data, and the memory image over them (spec 20_memory R20): a list of cells in one canonical
form, addresses strictly rising, no cell equal to what an unlisted address reads as.
-/

namespace Sys2Proof.Machine

/-! ## Sparse maps with natural-number keys -/

/-- The entry listed at a key, if any. -/
def tableGet {β : Type} : List (Nat × β) → Nat → Option β
  | [], _ => none
  | c :: cs, k => if c.1 = k then some c.2 else tableGet cs k

/-- List a value at a key, in its place by rising keys, replacing the entry that stood there. -/
def tablePut {β : Type} : List (Nat × β) → Nat → β → List (Nat × β)
  | [], k, v => [(k, v)]
  | c :: cs, k, v =>
    if k < c.1 then (k, v) :: c :: cs
    else if k = c.1 then (k, v) :: cs
    else c :: tablePut cs k v

/-- Remove the entry at a key. -/
def tableDrop {β : Type} : List (Nat × β) → Nat → List (Nat × β)
  | [], _ => []
  | c :: cs, k => if c.1 = k then tableDrop cs k else c :: tableDrop cs k

/-- The keys are strictly rising. -/
abbrev TableRising {β : Type} (l : List (Nat × β)) : Prop := l.Pairwise (fun p q => p.1 < q.1)

/-! ## The memory image -/

/-- The memory image as its listed cells (R20). -/
abbrev Memory := List Host.Cell

/-- What an unlisted address reads as. The image's contents are OPEN (R4, R18): an image is given by listing its non-zero
bytes, so this choice excludes none. DESIGN CHOICE, log 5. -/
def Memory.unlisted : Byte := 0

/-- The byte `MEM[a]`. -/
def Memory.read (m : Memory) (a : Nat) : Byte := (tableGet m a).getD Memory.unlisted

/-- `MEM[a] <- b`, keeping the canonical form. -/
def Memory.write (m : Memory) (a : Nat) (b : Byte) : Memory :=
  if b = Memory.unlisted then tableDrop m a else tablePut m a b

/-- The canonical form of an image of `size` bytes. -/
abbrev Memory.wf (size : Nat) (m : Memory) : Prop :=
  TableRising m ∧ (∀ c ∈ m, c.2 ≠ Memory.unlisted) ∧ (∀ c ∈ m, c.1 < size)

/-- The image as the array of its `size` bytes: what the configuration functions of `MEM` see (R19, R25; log 14). -/
def Memory.image (size : Nat) (m : Memory) : List Byte := (List.range size).map (Memory.read m)

/-- The cells of an array of bytes that starts at address `i`. -/
def Memory.ofImageFrom (i : Nat) : List Byte → Memory
  | [] => []
  | b :: bs =>
    if b = Memory.unlisted then Memory.ofImageFrom (i + 1) bs else (i, b) :: Memory.ofImageFrom (i + 1) bs

/-- The image `IMAGE` loaded whole (R18, R117). -/
def Memory.ofImage (bytes : List Byte) : Memory := Memory.ofImageFrom 0 bytes

end Sys2Proof.Machine
end

