-- ==== Sys2Proof/Syntax.lean ====
section
/-!
DEFINITION. The instructions (spec 30_encoding): the fields of the 107-bit bundle, one constructor of `Instr` per row of the
opcode table, and the reasons a bundle is malformed.
-/

namespace Sys2Proof

/-- A branch descriptor: the raw 16-bit displacement and the polarity, `true` for "branch when condition is true" (R38). -/
structure Branch where
  disp : Word16
  pol : Bool
  deriving DecidableEq, Repr

/-- The fields of the bundle, one for one (R35). -/
structure Bundle where
  tag : BitVec 5
  nops : BitVec 3
  op0 : Word16
  op1 : Word16
  op2 : Word16
  op3 : Word16
  brValid : Bool
  brPol : Bool
  brDisp : Word16
  stValid : Bool
  stDest : VarRef
  deriving DecidableEq, Repr

/-- The fields that `JIN` and the reserved tags carry and never read (R41 format X, R66, R76). They are kept so that no bit
the encoding makes present is lost. -/
structure Unread where
  nops : BitVec 3
  op0 : Word16
  op1 : Word16
  op2 : Word16
  op3 : Word16
  branch : Option Branch
  dest : Option VarRef
  deriving DecidableEq, Repr

/-- One fully decoded instruction with resolved operands; one constructor per row of the opcode table (R43). -/
inductive Instr where
  /-- `JUMP`, R72: the signed displacement `op[0]`. -/
  | jump (disp : Word16)
  /-- `JE`, R73: the value tested, the comparison operands, the branch descriptor. -/
  | je (tested : Word16) (comparands : List Word16) (br : Branch)
  /-- `JG`, R74. -/
  | jg (a b : Word16) (br : Branch)
  /-- `JL`, R75. -/
  | jl (a b : Word16) (br : Branch)
  /-- `JIN`, R76. -/
  | jin (x : Unread)
  /-- `PRINT`, R81: its operand is the text of the sideband `i_text` (R40). -/
  | print (text : Text)
  /-- `PRINT_ADDR`, R82: a byte address. -/
  | printAddr (addr : Word16)
  /-- `PRINT_CHAR`, R83: a symbol unit. -/
  | printChar (unit : SymbolUnit)
  /-- `ADD`, R86. -/
  | add (a b : Word16) (dest : VarRef)
  /-- `SUB`, R87. -/
  | sub (a b : Word16) (dest : VarRef)
  /-- `MUL`, R88. -/
  | mul (a b : Word16) (dest : VarRef)
  /-- `DIV`, R89: dividend, divisor. -/
  | div (a b : Word16) (dest : VarRef)
  /-- `MOD`, R90: dividend, divisor. -/
  | mod (a b : Word16) (dest : VarRef)
  /-- `NOT`, R93. -/
  | not (a : Word16) (dest : VarRef)
  /-- `OR`, R94. -/
  | or (a b : Word16) (dest : VarRef)
  /-- `AND`, R95. -/
  | and (a b : Word16) (dest : VarRef)
  /-- `STORE`, R97: the variable is the operand `op[0]`. -/
  | store (var : VarRef) (value : Word16)
  /-- `STOREB`, R98: base, byte offset, value. -/
  | storeb (base offset value : Word16)
  /-- `STOREW`, R99: base, word offset, value. -/
  | storew (base offset value : Word16)
  /-- Reserved tag 19, R66. -/
  | reserved19 (x : Unread)
  /-- Reserved tags 20 to 23, R66: `low` is bits 1:0 of the tag. -/
  | reserved20to23 (low : BitVec 2) (x : Unread)
  /-- Reserved tags 24 to 31, R66: `low` is bits 2:0 of the tag. -/
  | reserved24to31 (low : BitVec 3) (x : Unread)
  deriving DecidableEq, Repr

/-- Why a bundle fails `WF` (R42). Each carries the tag. -/
inductive Malformed where
  /-- `nops` is not a count the opcode's line of R42 admits. -/
  | operandCount (tag : BitVec 5) (nops : BitVec 3)
  /-- The opcode needs a branch descriptor and `br_valid` is 0. -/
  | branchMissing (tag : BitVec 5)
  /-- The opcode takes no branch descriptor and `br_valid` is 1. -/
  | branchSurplus (tag : BitVec 5)
  /-- The opcode needs a store destination and `st_valid` is 0. -/
  | destMissing (tag : BitVec 5)
  /-- The opcode takes no store destination and `st_valid` is 1. -/
  | destSurplus (tag : BitVec 5)
  deriving DecidableEq, Repr

end Sys2Proof
end

