-- ==== Sys2Proof/Machine/State.lean ====
section
/-!
DEFINITION. The state of the machine as plain data (spec 10_state R11, R18; 30_encoding R36; 60_exceptions R102 to R106), the
reasons it stops, the start of a run, and reset.
-/

namespace Sys2Proof.Machine

/-- The status of a step (R102). -/
inductive Status where
  /-- A successful step. -/
  | ok
  /-- `UnimplementedOpcode`: not fatal. -/
  | unimplemented
  /-- `DivideByZero`: fatal. -/
  | divideByZero
  /-- `OutOfBounds`: fatal. -/
  | outOfBounds
  deriving DecidableEq, Repr

/-- Why the machine stops with a fault. A fault ends the run (R104); `Sys2Proof.Machine.stepEnd` gives the state it leaves: nothing
the instruction would have written is, and `pc` stays where the fetch step left it, after the failing instruction (R103). -/
inductive Fault where
  /-- `DIVIDE_BY_ZERO`, raised by `DIV` and `MOD` on a zero divisor (R107). The spec's own end of the run: safe. -/
  | divideByZero
  /-- `OUT_OF_BOUNDS` with the offending address, raised by `STOREB`, `STOREW` and `PRINT_ADDR` (R105). The spec's own end of
  the run; safe, but for a claim that relies on the fault (log 22). -/
  | outOfBounds (addr : Int)
  /-- The fetch's `OutOfBounds`, raised by `fetch` when the encoding at `pc` is not inside the image (U6, R21). Safe, log 3. -/
  | fetchOutOfBounds (pc : Int)
  deriving DecidableEq, Repr

/-- Why the machine gives no meaning. -/
inductive Refusal where
  /-- An instruction without a meaning yet: an arm of `exec`. Safe. -/
  | notModelled (mnemonic : String)
  /-- The presented bundle fails `WF`: raised by `step` (R42, U1). Safe, log 17. -/
  | malformed (why : Malformed)
  /-- The environment presents no transaction: raised by `fetch` (R123 (b)). Safe, log 2. -/
  | noTransaction
  deriving DecidableEq, Repr

/-- What the environment presents for one `execute` (R36): the bundle, the text sideband, and how many bytes the fetch step
advanced `pc` by, "past the instruction's own encoding" (R12). DESIGN CHOICE, log 1. -/
structure Transaction where
  bundle : BundleWord
  text : Text
  length : Nat
  deriving DecidableEq, Repr

/-- One listed answer of `ReadEncodedString` (R25): its three arguments and what it answers, `none` for `OutOfBounds`.
DESIGN CHOICE, log 13. -/
structure ReaderRow where
  image : List Byte
  addr : Int
  marker : Int
  answer : Option (Int × List SymbolUnit)
  deriving DecidableEq, Repr

/-- The state: the environment state of R11, and what the interface carries. -/
structure State where
  /-- `MEM_SIZE`, fixed for a run (R4, R117). -/
  memSize : Nat
  /-- `MEM` (R11, R20). -/
  mem : Memory
  /-- `pc`, an exact integer (R12, R14). -/
  pc : Int
  /-- `VAR`: the variables that some step has written, by rising `VarRef` (R11, R15). -/
  vars : List (Nat × Word16)
  /-- `OUT`, one element per emitting step (R16). -/
  out : List Text
  /-- `o_status` of the last step of the block (R36, R102). The model's latch, log 10. -/
  status : Status
  /-- The run mark "an unimplemented opcode was executed" (R106, U4). Log 11. -/
  unimplemented : Bool
  /-- The run status (R18): the fault that has ended the run, if one is recorded. The caller keeps it, the block neither reads nor
  writes it, and nothing clears it (R11, R104). Log 12. -/
  fault : Option Fault
  /-- The transactions the environment presents, the next one first (R36). Log 1. -/
  inbox : List Transaction
  /-- The listed answers of the string reader (R25). Log 13. -/
  readerRows : List ReaderRow
  deriving DecidableEq, Repr

/-- The start of a run (R18, R117): the image loaded whole, `MEM_SIZE` its length, `pc` at `PC_INIT`, `VAR` unwritten, `OUT`
empty, no fault recorded. The last argument lists known answers of the string reader. -/
def State.launch (image : List Byte) (pcInit : Int) (rows : List ReaderRow) : State where
  memSize := image.length
  mem := Memory.ofImage image
  pc := pcInit
  vars := []
  out := []
  status := .ok
  unimplemented := false
  fault := none
  inbox := []
  readerRows := rows

/-- The machine right after reset (R18, R116). The block has nothing to reset; `OUT` is empty and no fault is recorded, as the
spec says; `MEM_SIZE`, `IMAGE` and `PC_INIT` are OPEN there and take the values of log 4 to 6. -/
def State.reset : State where
  memSize := Config.resetMemSize
  mem := []
  pc := Config.resetPc
  vars := []
  out := []
  status := .ok
  unimplemented := false
  fault := none
  inbox := []
  readerRows := []

end Sys2Proof.Machine
end

