-- ==== Sys2Proof/Machine/Operands.lean ====
section
/-!
DEFINITION. How operand values are read and addresses formed (spec 40_numeric_units R51 to R53, R68; 20_memory R27; 41_branch
R70; 70_reset_and_hazards R119).
-/

namespace Sys2Proof.Machine

/-- `signed(v)`: bit 15 set reads as `v - 65536` (R51). -/
def signed (v : Word16) : Int :=
  if v.getLsbD 15 then (v.toNat : Int) - 65536 else (v.toNat : Int)

/-- `trunc16(x) = x mod 65536`, the remainder in `0 .. 65535` also for negative `x` (R52). PRESUMED by the spec outside
`-32768 .. 32767` (G2), log 19. -/
def trunc16 (x : Int) : Word16 := BitVec.ofNat 16 (x % 65536).toNat

/-- `unsigned(x)`, a synonym of `trunc16` (R53). -/
def unsigned (x : Int) : Word16 := trunc16 x

/-- The byte address of `STOREB`: `op[0] + signed(op[1])`, exact (R27, R68). -/
def byteAddress (base offset : Word16) : Int := (base.toNat : Int) + signed offset

/-- The byte address of `STOREW`: `op[0] + 2*signed(op[1])`, exact (R27, R68). -/
def wordAddress (base offset : Word16) : Int := (base.toNat : Int) + 2 * signed offset

/-- `target(pc, d) = pc + signed(d) - 2`, exact (R70). -/
def branchTarget (pc : Int) (d : Word16) : Int := pc + signed d - 2

/-- The displacement that reaches `target` from an instruction whose successor stands at `after`, where one exists (R119). -/
def displacementTo (target after : Int) : Option Word16 :=
  let x := target - after + 2
  if -32768 ≤ x ∧ x ≤ 32767 then some (trunc16 x) else none

end Sys2Proof.Machine
end

