-- ==== Sys2Proof/Machine/Ops.lean ====
section
/-!
DEFINITION. The named operations over the state: ending a step, the image, the variables, the output sink, the program counter
and the collaborators' calls (spec 00_scope R7, 10_state R13 to R19, 20_memory R21 to R25, 42_print R80, 60_exceptions R102
to R106).
-/

namespace Sys2Proof.Machine

/-- What a meaning answers. -/
abbrev Result := Host.Outcome State Fault Refusal

/-! ## Ending a step -/

/-- The 2-bit code of a status (R102). -/
def statusCode : Status → BitVec 2
  | .ok => 0
  | .unimplemented => 1
  | .divideByZero => 2
  | .outOfBounds => 3

/-- The statuses that end the run (R102, R104). -/
def statusFatal : Status → Bool
  | .ok => false
  | .unimplemented => false
  | .divideByZero => true
  | .outOfBounds => true

/-- The status a fault reports on `o_status` (R102). -/
def faultStatus : Fault → Status
  | .divideByZero => .divideByZero
  | .outOfBounds _ => .outOfBounds
  | .fetchOutOfBounds _ => .outOfBounds

/-- The step ends with status `OK` (R102). -/
def complete (s : State) : Result := .next { s with status := .ok }

/-- The step ends with the non-fatal status `UNIMPLEMENTED`, and the run carries the mark (R106). -/
def completeUnimplemented (s : State) : Result :=
  .next { s with status := .unimplemented, unimplemented := true }

/-- `raise`: the step ends with a fatal status and no state change (R103, R104). There is no trap entry: nothing is saved, no
mode changes, control goes nowhere inside the machine (R110); and so there is no return (R111). The state the run then ends in is
`faulted` of the state that the instruction ran on. -/
def raise (f : Fault) : Result := .fault f

/-- The caller records that the run has faulted (R11, R104). -/
def recordFault (f : Fault) (s : State) : State := { s with fault := some f }

/-- The faulted end of a run whose last instruction raised `f` on `s`: `MEM`, `pc`, `VAR` and `OUT` are those of `s`, so `pc` is
the address after the failing instruction; the fatal status stands on `o_status` and is kept with the run (R102, R103, R104). -/
def faulted (f : Fault) (s : State) : State := recordFault f { s with status := faultStatus f }

/-- The end of a step whose one write Memory may reject: Memory's `OutOfBounds` is passed on (R21, R105). -/
def settle : Except Fault State → Result
  | .ok s => complete s
  | .error f => raise f

/-! ## The memory image -/

/-- An access of `n` bytes at `a` is inside the image (R21). -/
def inBounds (size : Nat) (a : Int) (n : Nat) : Bool :=
  decide (0 ≤ a ∧ a + (n : Int) - 1 ≤ (size : Int) - 1)

/-- `MemWrite(a, 1, v)`: the low 8 bits of `v` at `a` (R22). -/
def writeByte (a : Int) (v : Word16) (s : State) : Except Fault State :=
  if inBounds s.memSize a 1 then
    .ok { s with mem := Memory.write s.mem a.toNat (v.extractLsb' 0 8) }
  else .error (.outOfBounds a)

/-- `MemWrite(a, 2, v)`: big-endian, both bytes or neither (R21, R23). That the most significant byte stands at the lower
address is PRESUMED by the spec (G1), log 19. -/
def writeWord (a : Int) (v : Word16) (s : State) : Except Fault State :=
  if inBounds s.memSize a 2 then
    .ok { s with mem :=
      Memory.write (Memory.write s.mem a.toNat (v.extractLsb' 8 8)) (a.toNat + 1) (v.extractLsb' 0 8) }
  else .error (.outOfBounds a)

/-- `MemRead(a, 1)`: the accessor that states end states; no opcode uses it (R24). -/
def readByte (a : Int) (s : State) : Except Fault Byte :=
  if inBounds s.memSize a 1 then .ok (Memory.read s.mem a.toNat) else .error (.outOfBounds a)

/-- `MemRead(a, 2)`, `read_word`: big-endian; part of the Memory contract, used by no opcode (R24). -/
def readWord (a : Int) (s : State) : Except Fault Word16 :=
  if inBounds s.memSize a 2 then
    .ok (Memory.read s.mem a.toNat ++ Memory.read s.mem (a.toNat + 1))
  else .error (.outOfBounds a)

/-! ## The variables, the program counter, the output sink -/

/-- `VAR[d]`: what a variable holds. No step reads it (R11, R15); a variable no step has written holds the free
`Config.varInit d` (R18). -/
def readVar (d : VarRef) (s : State) : Word16 := (tableGet s.vars d.toNat).getD (Config.varInit d)

/-- `VAR[d] <- v`, `store_variable`: replaces the value at `d` and no other; it cannot fail (R15). Flat and independent of the
image by decision D26, log 8. -/
def storeVar (d : VarRef) (v : Word16) (s : State) : State :=
  { s with vars := tablePut s.vars d.toNat v }

/-- `pc <- target` (R13); not range-checked (R14, R78). -/
def setPc (target : Int) (s : State) : State := { s with pc := target }

/-- `emit(t)`: append one element to `OUT` (R16). -/
def emit (t : Text) (s : State) : State := { s with out := s.out ++ [t] }

/-! ## The collaborators -/

/-- The version the header shows of the current image, never a cached one (R19). -/
def headerVersion (s : State) : BitVec 8 := Config.versionOf (Memory.image s.memSize s.mem)

/-- `ReadEncodedString(MEM, a, m)` (R25): `OutOfBounds` outside the image; inside, the listed answer where one is listed, else
the free `Config.readString`. Either way it depends on its three arguments alone and changes nothing. -/
def readString (a marker : Int) (s : State) : Option (Int × List SymbolUnit) :=
  if inBounds s.memSize a 1 then
    let img := Memory.image s.memSize s.mem
    match s.readerRows.find? (fun r => decide (r.addr = a) && decide (r.marker = marker) && decide (r.image = img)) with
    | some r => r.answer
    | none => Config.readString img a marker
  else none

/-- `Translate(SEL0, VersionOf(MEM), units)` (R80). -/
def translateUnits (units : List SymbolUnit) (s : State) : Text :=
  Config.translate Config.sel0 (headerVersion s) units

end Sys2Proof.Machine
end

