-- ==== Sys2Proof/Machine/Units.lean ====
section
/-!
DEFINITION. The numeric units: the two_complement_alu's arithmetic and logic, the signed_divide_engine and the
modulo_truncator (spec 40_numeric_units R50, R55 to R63, R69). Each is a pure function of its inputs (R50).
-/

namespace Sys2Proof.Machine

/-! ## two_complement_alu -/

/-- `add16` (R55). -/
def add16 (a b : Word16) : Word16 := trunc16 (signed a + signed b)

/-- `sub16` (R55). -/
def sub16 (a b : Word16) : Word16 := trunc16 (signed a - signed b)

/-- `mul16` (R55). -/
def mul16 (a b : Word16) : Word16 := trunc16 (signed a * signed b)

/-- `not16(v) = 65535 - v` (R62). -/
def not16 (v : Word16) : Word16 := BitVec.ofNat 16 (65535 - v.toNat)

/-- `or16` (R63). -/
def or16 (a b : Word16) : Word16 := a ||| b

/-- `and16` (R63). -/
def and16 (a b : Word16) : Word16 := a &&& b

/-! ## signed_divide_engine -/

/-- `quotient(a, b) = sign(a) * sign(b) * floor(|a| / |b|)`; it has no value for `b = 0` (R56). -/
def quotient (a b : Int) : Option Int :=
  if b = 0 then none else some (a.sign * b.sign * ((a.natAbs / b.natAbs : Nat) : Int))

/-- The SDE: `none` is `dbz`, the output `q` having no value then (R57, U9). -/
def sdeUnit (a b : Word16) : Option Word16 := (quotient (signed a) (signed b)).map trunc16

/-! ## modulo_truncator -/

/-- `remainder(a, b) = sign(a) * (|a| mod |b|)`; it has no value for `b = 0` (R59). -/
def remainder (a b : Int) : Option Int :=
  if b = 0 then none else some (a.sign * ((a.natAbs % b.natAbs : Nat) : Int))

/-- The MT: `none` is `dbz` (R60, U9). -/
def mtUnit (a b : Word16) : Option Word16 := (remainder (signed a) (signed b)).map trunc16

/-! ## The magnitude datapath of R69 -/

/-- `ma`, `mb`: the magnitude of a raw input, in `0 .. 32768` (R69). -/
def magnitude (v : Word16) : Nat := if v.getLsbD 15 then 65536 - v.toNat else v.toNat

/-- Apply a sign to an unsigned result: `trunc16(-k)` is `(65536 - k) mod 65536` (R69). -/
def withSign (neg : Bool) (k : Nat) : Word16 :=
  if neg then BitVec.ofNat 16 ((65536 - k) % 65536) else BitVec.ofNat 16 k

/-- The datapath of R69 that realises both units, `(q, r)`; without a value where the divisor is zero. No instruction calls it:
it is the second design that the SDE and the MT are compared with. -/
def divideDatapath (a b : Word16) : Option (Word16 × Word16) :=
  if b = 0 then none
  else some (withSign (Bool.xor (a.getLsbD 15) (b.getLsbD 15)) (magnitude a / magnitude b),
    withSign (a.getLsbD 15) (magnitude a % magnitude b))

end Sys2Proof.Machine
end

