-- ==== Sys2Proof/Machine/Arith.lean ====
section
/-!
DEFINITION. Signed arithmetic: `ADD SUB MUL DIV MOD` (spec 43_arithmetic R85 to R90).
-/

namespace Sys2Proof.Machine

/-- The store of a unit's result; a unit that flags a zero divisor raises `DivideByZero` before any write (R89, R90, R107). -/
def storeUnit (result : Option Word16) (dest : VarRef) (s : State) : Result :=
  match result with
  | none => raise .divideByZero
  | some v => complete (storeVar dest v s)

/-- `ADD` (R86). -/
def execAdd (a b : Word16) (dest : VarRef) (s : State) : Result := complete (storeVar dest (add16 a b) s)

/-- `SUB` (R87). -/
def execSub (a b : Word16) (dest : VarRef) (s : State) : Result := complete (storeVar dest (sub16 a b) s)

/-- `MUL` (R88). -/
def execMul (a b : Word16) (dest : VarRef) (s : State) : Result := complete (storeVar dest (mul16 a b) s)

/-- `DIV` (R89). -/
def execDiv (a b : Word16) (dest : VarRef) (s : State) : Result := storeUnit (sdeUnit a b) dest s

/-- `MOD` (R90). -/
def execMod (a b : Word16) (dest : VarRef) (s : State) : Result := storeUnit (mtUnit a b) dest s

end Sys2Proof.Machine
end

