-- ==== Sys2Proof/Machine/Flags.lean ====
section
/-!
DEFINITION. The hardware has no flags and no condition codes (spec 10_state R17). What stands here is what takes their place
inside one step: the comparisons of the TCA (40_numeric_units R63) and the branch polarity rule (41_branch R71).
-/

namespace Sys2Proof.Machine

/-- `eq16`: equality of the raw values (R63). -/
def eq16 (a b : Word16) : Bool := decide (a = b)

/-- `gt16`: signed greater-than (R63). -/
def gt16 (a b : Word16) : Bool := decide (signed a > signed b)

/-- `lt16`: signed less-than (R63). -/
def lt16 (a b : Word16) : Bool := decide (signed a < signed b)

/-- The condition of `JE`: some comparison operand equals the value tested; false where there is none (R73, decision D21). -/
def anyEqual (tested : Word16) (comparands : List Word16) : Bool := comparands.any (fun c => eq16 c tested)

/-- The branch is taken iff the condition equals the polarity (R71). -/
def branchTaken (cond : Bool) (br : Branch) : Bool := cond == br.pol

/-- `branch(cond)`: write `pc` if taken, else leave it (R71). -/
def branchOn (cond : Bool) (br : Branch) (s : State) : State :=
  if branchTaken cond br then setPc (branchTarget s.pc br.disp) s else s

end Sys2Proof.Machine
end

