-- ==== Sys2Proof/Machine/Branch.lean ====
section
/-!
DEFINITION. Control transfer: `JUMP JE JG JL JIN` (spec 41_branch R70 to R78). `pc` in the state is the address after the
instruction (10_state R12). No displacement has a special meaning (R77).
-/

namespace Sys2Proof.Machine

/-- `JUMP` (R72). -/
def execJump (disp : Word16) (s : State) : Result := complete (setPc (branchTarget s.pc disp) s)

/-- `JE` (R73). -/
def execJe (tested : Word16) (comparands : List Word16) (br : Branch) (s : State) : Result :=
  complete (branchOn (anyEqual tested comparands) br s)

/-- `JG` (R74). -/
def execJg (a b : Word16) (br : Branch) (s : State) : Result := complete (branchOn (gt16 a b) br s)

/-- `JL` (R75). -/
def execJl (a b : Word16) (br : Branch) (s : State) : Result := complete (branchOn (lt16 a b) br s)

/-- `JIN` (R76): no field is read, no branch, no store. -/
def execJin (s : State) : Result := completeUnimplemented s

end Sys2Proof.Machine
end

