-- ==== Sys2Proof/Machine/Logic.lean ====
section
/-!
DEFINITION. Bitwise logic on raw operands: `NOT OR AND` (spec 44_logic R93 to R95).
-/

namespace Sys2Proof.Machine

/-- `NOT` (R93). -/
def execNot (a : Word16) (dest : VarRef) (s : State) : Result := complete (storeVar dest (not16 a) s)

/-- `OR` (R94). -/
def execOr (a b : Word16) (dest : VarRef) (s : State) : Result := complete (storeVar dest (or16 a b) s)

/-- `AND` (R95). -/
def execAnd (a b : Word16) (dest : VarRef) (s : State) : Result := complete (storeVar dest (and16 a b) s)

end Sys2Proof.Machine
end

