-- ==== Sys2Proof/Machine/Print.lean ====
section
/-!
DEFINITION. Text output: `PRINT PRINT_ADDR PRINT_CHAR` (spec 42_print R81 to R83).
-/

namespace Sys2Proof.Machine

/-- `PRINT` (R81): the text verbatim; the codec is not called. -/
def execPrint (text : Text) (s : State) : Result := complete (emit text s)

/-- `PRINT_ADDR` (R82): the operand is a raw byte address, the marker is 0, the consumed length is discarded. -/
def execPrintAddr (addr : Word16) (s : State) : Result :=
  match readString (addr.toNat : Int) 0 s with
  | none => raise (.outOfBounds (addr.toNat : Int))
  | some (_, units) => complete (emit (translateUnits units s) s)

/-- `PRINT_CHAR` (R83): the operand is one symbol unit, raw. -/
def execPrintChar (unit : SymbolUnit) (s : State) : Result := complete (emit (translateUnits [unit] s) s)

end Sys2Proof.Machine
end

