-- ==== Sys2Proof/Machine/Reserved.lean ====
section
/-!
DEFINITION. The reserved tags 19 to 31 (spec 40_numeric_units R66, 30_encoding R44): no field of the bundle is read, no state
changes, the status is `UNIMPLEMENTED`.
-/

namespace Sys2Proof.Machine

/-- Tag 19 (R66). -/
def execReserved19 (s : State) : Result := completeUnimplemented s

/-- Tags 20 to 23 (R66). -/
def execReserved20to23 (s : State) : Result := completeUnimplemented s

/-- Tags 24 to 31 (R66). -/
def execReserved24to31 (s : State) : Result := completeUnimplemented s

end Sys2Proof.Machine
end

