-- ==== Sys2Proof/Machine/Store.lean ====
section
/-!
DEFINITION. Stores: `STORE STOREB STOREW` (spec 45_store R97 to R99).
-/

namespace Sys2Proof.Machine

/-- `STORE` (R97): the operand `op[0]` is the variable, `op[1]` is stored raw. -/
def execStore (var : VarRef) (value : Word16) (s : State) : Result := complete (storeVar var value s)

/-- `STOREB` (R98). -/
def execStoreb (base offset value : Word16) (s : State) : Result :=
  settle (writeByte (byteAddress base offset) value s)

/-- `STOREW` (R99). -/
def execStorew (base offset value : Word16) (s : State) : Result :=
  settle (writeWord (wordAddress base offset) value s)

end Sys2Proof.Machine
end

