-- ==== Sys2Proof/Machine/Dispatch.lean ====
section
/-!
DEFINITION. The instruction_dispatcher: one arm per opcode, total, none that traps (spec 40_numeric_units R64, R65).
-/

namespace Sys2Proof.Machine

def exec (i : Instr) (s : State) : Host.Outcome State Fault Refusal :=
  match i with
  | .jump d => Sys2Proof.Machine.execJump d s
  | .je a cs br => Sys2Proof.Machine.execJe a cs br s
  | .jg a b br => Sys2Proof.Machine.execJg a b br s
  | .jl a b br => Sys2Proof.Machine.execJl a b br s
  | .jin _ => Sys2Proof.Machine.execJin s
  | .print t => Sys2Proof.Machine.execPrint t s
  | .printAddr a => Sys2Proof.Machine.execPrintAddr a s
  | .printChar u => Sys2Proof.Machine.execPrintChar u s
  | .add a b d => Sys2Proof.Machine.execAdd a b d s
  | .sub a b d => Sys2Proof.Machine.execSub a b d s
  | .mul a b d => Sys2Proof.Machine.execMul a b d s
  | .div a b d => Sys2Proof.Machine.execDiv a b d s
  | .mod a b d => Sys2Proof.Machine.execMod a b d s
  | .not a d => Sys2Proof.Machine.execNot a d s
  | .or a b d => Sys2Proof.Machine.execOr a b d s
  | .and a b d => Sys2Proof.Machine.execAnd a b d s
  | .store v x => Sys2Proof.Machine.execStore v x s
  | .storeb b o x => Sys2Proof.Machine.execStoreb b o x s
  | .storew b o x => Sys2Proof.Machine.execStorew b o x s
  | .reserved19 _ => Sys2Proof.Machine.execReserved19 s
  | .reserved20to23 _ _ => Sys2Proof.Machine.execReserved20to23 s
  | .reserved24to31 _ _ => Sys2Proof.Machine.execReserved24to31 s

end Sys2Proof.Machine
end

