-- ==== Sys2Proof/WellFormed.lean ====
section
/-!
DEFINITION. Well-formed terms: the instructions that some bundle encodes, and the canonical bundles (spec 30_encoding R37,
R42, R49). The table of R42 on bundles, `Bundle.check`, stands in Decode.lean, which rejects by it.
-/

namespace Sys2Proof

/-- Operand slot `i` of a bundle with `nops` operands is absent, so a canonical encoding leaves it zero (R49). -/
def slotCanonical (nops : BitVec 3) (i : Nat) (v : Word16) : Bool :=
  decide (i < nops.toNat) || v == 0

/-- The unread fields are canonical: every absent operand slot is zero (R49). -/
def Unread.canonical (x : Unread) : Bool :=
  slotCanonical x.nops 0 x.op0 && slotCanonical x.nops 1 x.op1 &&
    slotCanonical x.nops 2 x.op2 && slotCanonical x.nops 3 x.op3

/-- A bundle is canonical: every field that is not present is zero (R49). -/
def Bundle.canonical (b : Bundle) : Bool :=
  slotCanonical b.nops 0 b.op0 && slotCanonical b.nops 1 b.op1 &&
    slotCanonical b.nops 2 b.op2 && slotCanonical b.nops 3 b.op3 &&
    (b.brValid || (!b.brPol && b.brDisp == 0)) && (b.stValid || b.stDest == 0)

/-- An instruction that a bundle can carry: `JE` has at most `MAX_OPS - 1 = 3` comparison operands (R37, R42), and the
unread fields of `JIN` and the reserved tags are canonical (R49). Every other term is well formed. -/
def Instr.wf : Instr → Bool
  | .je _ comparands _ => decide (comparands.length ≤ 3)
  | .jin x => x.canonical
  | .reserved19 x => x.canonical
  | .reserved20to23 _ x => x.canonical
  | .reserved24to31 _ x => x.canonical
  | .jump _ => true
  | .jg _ _ _ => true
  | .jl _ _ _ => true
  | .print _ => true
  | .printAddr _ => true
  | .printChar _ => true
  | .add _ _ _ => true
  | .sub _ _ _ => true
  | .mul _ _ _ => true
  | .div _ _ _ => true
  | .mod _ _ _ => true
  | .not _ _ => true
  | .or _ _ _ => true
  | .and _ _ _ => true
  | .store _ _ => true
  | .storeb _ _ _ => true
  | .storew _ _ _ => true

end Sys2Proof
end

