-- ==== Sys2Proof/Decode.lean ====
section
/-!
DEFINITION. The decoder of the bundle, total on every 107-bit word and rejecting by name, and after it the encoder (spec
30_encoding R35, R37 to R44, R49). The bytecode in the memory image is in no source (R3, N1): only the bundle is decoded.
-/

namespace Sys2Proof

/-- What an opcode's line of R42 asks of a bundle; `none` is "any". -/
structure Shape where
  nops : Option (List Nat)
  branch : Option Bool
  dest : Option Bool
  deriving DecidableEq, Repr

/-- The table of R42, by tag (R43). -/
def shapeOf (tag : BitVec 5) : Shape :=
  match tag.toNat with
  | 0 => ⟨some [1], some false, some false⟩            -- JUMP
  | 1 => ⟨some [1, 2, 3, 4], some true, some false⟩    -- JE
  | 2 => ⟨some [2], some true, some false⟩             -- JG
  | 3 => ⟨some [2], some true, some false⟩             -- JL
  | 4 => ⟨none, none, none⟩                            -- JIN
  | 5 => ⟨some [0], some false, some false⟩            -- PRINT
  | 6 => ⟨some [1], some false, some false⟩            -- PRINT_ADDR
  | 7 => ⟨some [1], some false, some false⟩            -- PRINT_CHAR
  | 8 => ⟨some [2], some false, some true⟩             -- ADD
  | 9 => ⟨some [2], some false, some true⟩             -- SUB
  | 10 => ⟨some [2], some false, some true⟩            -- MUL
  | 11 => ⟨some [2], some false, some true⟩            -- DIV
  | 12 => ⟨some [2], some false, some true⟩            -- MOD
  | 13 => ⟨some [1], some false, some true⟩            -- NOT
  | 14 => ⟨some [2], some false, some true⟩            -- OR
  | 15 => ⟨some [2], some false, some true⟩            -- AND
  | 16 => ⟨some [2], some false, some false⟩           -- STORE
  | 17 => ⟨some [3], some false, some false⟩           -- STOREB
  | 18 => ⟨some [3], some false, some false⟩           -- STOREW
  | _ => ⟨none, none, none⟩                            -- reserved, R44

/-- `WF` of R42 as a check that names what is wrong; `none` is well formed. Count, then branch, then destination: the order
decides only the name (log 17). -/
def Bundle.check (b : Bundle) : Option Malformed :=
  let sh := shapeOf b.tag
  if sh.nops.any (fun ns => !ns.contains b.nops.toNat) then some (.operandCount b.tag b.nops)
  else if sh.branch == some true && !b.brValid then some (.branchMissing b.tag)
  else if sh.branch == some false && b.brValid then some (.branchSurplus b.tag)
  else if sh.dest == some true && !b.stValid then some (.destMissing b.tag)
  else if sh.dest == some false && b.stValid then some (.destSurplus b.tag)
  else none

/-- The fields of a bundle word, at the bit positions of R35. -/
def unpack (w : BundleWord) : Bundle where
  tag := w.extractLsb' 0 5
  nops := w.extractLsb' 5 3
  op0 := w.extractLsb' 8 16
  op1 := w.extractLsb' 24 16
  op2 := w.extractLsb' 40 16
  op3 := w.extractLsb' 56 16
  brValid := w.getLsbD 72
  brPol := w.getLsbD 73
  brDisp := w.extractLsb' 74 16
  stValid := w.getLsbD 90
  stDest := w.extractLsb' 91 16

/-- The branch descriptor the bundle carries (R38). -/
def Bundle.branch (b : Bundle) : Branch := ⟨b.brDisp, b.brPol⟩

/-- The comparison operands of `JE`: `op[1] .. op[nops-1]` (R37, R73). -/
def Bundle.comparands (b : Bundle) : List Word16 :=
  [b.op1, b.op2, b.op3].take (b.nops.toNat - 1)

/-- Operand slot `i`, zero where it is absent (R37, R49). -/
def presentSlot (nops : BitVec 3) (i : Nat) (v : Word16) : Word16 :=
  if i < nops.toNat then v else 0

/-- The fields present in a bundle that `JIN` or a reserved tag carries unread (R41 format X). -/
def Bundle.unread (b : Bundle) : Unread where
  nops := b.nops
  op0 := presentSlot b.nops 0 b.op0
  op1 := presentSlot b.nops 1 b.op1
  op2 := presentSlot b.nops 2 b.op2
  op3 := presentSlot b.nops 3 b.op3
  branch := if b.brValid then some b.branch else none
  dest := if b.stValid then some b.stDest else none

/-- The opcode is selected by the tag alone (R43); the fields are read at their places (R41, R46). -/
def Bundle.toInstr (b : Bundle) (text : Text) : Instr :=
  match b.tag.toNat with
  | 0 => .jump b.op0
  | 1 => .je b.op0 b.comparands b.branch
  | 2 => .jg b.op0 b.op1 b.branch
  | 3 => .jl b.op0 b.op1 b.branch
  | 4 => .jin b.unread
  | 5 => .print text
  | 6 => .printAddr b.op0
  | 7 => .printChar b.op0
  | 8 => .add b.op0 b.op1 b.stDest
  | 9 => .sub b.op0 b.op1 b.stDest
  | 10 => .mul b.op0 b.op1 b.stDest
  | 11 => .div b.op0 b.op1 b.stDest
  | 12 => .mod b.op0 b.op1 b.stDest
  | 13 => .not b.op0 b.stDest
  | 14 => .or b.op0 b.op1 b.stDest
  | 15 => .and b.op0 b.op1 b.stDest
  | 16 => .store b.op0 b.op1
  | 17 => .storeb b.op0 b.op1 b.op2
  | 18 => .storew b.op0 b.op1 b.op2
  | 19 => .reserved19 b.unread
  | 20 => .reserved20to23 0 b.unread
  | 21 => .reserved20to23 1 b.unread
  | 22 => .reserved20to23 2 b.unread
  | 23 => .reserved20to23 3 b.unread
  | 24 => .reserved24to31 0 b.unread
  | 25 => .reserved24to31 1 b.unread
  | 26 => .reserved24to31 2 b.unread
  | 27 => .reserved24to31 3 b.unread
  | 28 => .reserved24to31 4 b.unread
  | 29 => .reserved24to31 5 b.unread
  | 30 => .reserved24to31 6 b.unread
  | _ => .reserved24to31 7 b.unread                    -- 31: the tag has 5 bits

/-- A bundle's instruction; a bundle that fails `WF` is refused with its reason (R42, R45, U1). -/
def decodeBundle (b : Bundle) (text : Text) : Except Malformed Instr :=
  match b.check with
  | some e => .error e
  | none => .ok (b.toInstr text)

/-- The decoder: total on the 2^107 words, with what stands on the sideband (R40, R45). -/
def decode (w : BundleWord) (text : Text) : Except Malformed Instr := decodeBundle (unpack w) text

/-! ## The encoder -/

/-- A bundle word from its fields, by the integer formula of R35. -/
def pack (b : Bundle) : BundleWord :=
  BitVec.ofNat 107 (b.tag.toNat + b.nops.toNat * 2 ^ 5 + b.op0.toNat * 2 ^ 8 + b.op1.toNat * 2 ^ 24 +
    b.op2.toNat * 2 ^ 40 + b.op3.toNat * 2 ^ 56 + b.brValid.toNat * 2 ^ 72 + b.brPol.toNat * 2 ^ 73 +
    b.brDisp.toNat * 2 ^ 74 + b.stValid.toNat * 2 ^ 90 + b.stDest.toNat * 2 ^ 91)

/-- A bundle with a tag and the operands in order; everything else absent and zero (R49). -/
def opsBundle (tag : BitVec 5) (ops : List Word16) : Bundle where
  tag := tag
  nops := BitVec.ofNat 3 ops.length
  op0 := ops.getD 0 0
  op1 := ops.getD 1 0
  op2 := ops.getD 2 0
  op3 := ops.getD 3 0
  brValid := false
  brPol := false
  brDisp := 0
  stValid := false
  stDest := 0

/-- The bundle with a branch descriptor present (R38). -/
def Bundle.withBranch (b : Bundle) (br : Branch) : Bundle :=
  { b with brValid := true, brPol := br.pol, brDisp := br.disp }

/-- The bundle with a store destination present (R39). -/
def Bundle.withDest (b : Bundle) (d : VarRef) : Bundle :=
  { b with stValid := true, stDest := d }

/-- The bundle of an instruction that carries unread fields (R41 format X). -/
def unreadBundle (tag : BitVec 5) (x : Unread) : Bundle where
  tag := tag
  nops := x.nops
  op0 := x.op0
  op1 := x.op1
  op2 := x.op2
  op3 := x.op3
  brValid := x.branch.isSome
  brPol := (x.branch.map Branch.pol).getD false
  brDisp := (x.branch.map Branch.disp).getD 0
  stValid := x.dest.isSome
  stDest := x.dest.getD 0

/-- The canonical bundle of an instruction (R41, R43, R49). -/
def Instr.bundle : Instr → Bundle
  | .jump d => opsBundle 0 [d]
  | .je a cs br => (opsBundle 1 (a :: cs)).withBranch br
  | .jg a b br => (opsBundle 2 [a, b]).withBranch br
  | .jl a b br => (opsBundle 3 [a, b]).withBranch br
  | .jin x => unreadBundle 4 x
  | .print _ => opsBundle 5 []
  | .printAddr a => opsBundle 6 [a]
  | .printChar u => opsBundle 7 [u]
  | .add a b d => (opsBundle 8 [a, b]).withDest d
  | .sub a b d => (opsBundle 9 [a, b]).withDest d
  | .mul a b d => (opsBundle 10 [a, b]).withDest d
  | .div a b d => (opsBundle 11 [a, b]).withDest d
  | .mod a b d => (opsBundle 12 [a, b]).withDest d
  | .not a d => (opsBundle 13 [a]).withDest d
  | .or a b d => (opsBundle 14 [a, b]).withDest d
  | .and a b d => (opsBundle 15 [a, b]).withDest d
  | .store v x => opsBundle 16 [v, x]
  | .storeb b o v => opsBundle 17 [b, o, v]
  | .storew b o v => opsBundle 18 [b, o, v]
  | .reserved19 x => unreadBundle 19 x
  | .reserved20to23 low x => unreadBundle (BitVec.ofNat 5 (20 + low.toNat)) x
  | .reserved24to31 low x => unreadBundle (BitVec.ofNat 5 (24 + low.toNat)) x

/-- What travels on `i_text`: the text of `PRINT`; no other opcode reads it (R40). -/
def Instr.text : Instr → Text
  | .print t => t
  | .jump _ => []
  | .je _ _ _ => []
  | .jg _ _ _ => []
  | .jl _ _ _ => []
  | .jin _ => []
  | .printAddr _ => []
  | .printChar _ => []
  | .add _ _ _ => []
  | .sub _ _ _ => []
  | .mul _ _ _ => []
  | .div _ _ _ => []
  | .mod _ _ _ => []
  | .not _ _ => []
  | .or _ _ _ => []
  | .and _ _ _ => []
  | .store _ _ => []
  | .storeb _ _ _ => []
  | .storew _ _ _ => []
  | .reserved19 _ => []
  | .reserved20to23 _ _ => []
  | .reserved24to31 _ _ => []

/-- The words of a well-formed instruction: its canonical bundle word (R49). Its sideband is `Instr.text`. -/
def encode (i : Instr) : BundleWord := pack i.bundle

/-! ## The opcode table's numbering -/

/-- The bundle word that a word of the opcode table stands for: a bundle has 107 bits (R35), so a number that needs more is
no bundle. -/
def tableBundle (nbits w : Nat) : Option BundleWord :=
  let v := w % 2 ^ nbits
  if v < 2 ^ 107 then some (BitVec.ofNat 107 v) else none

/-- The decoder on a word of the opcode table; the sideband is empty there, since the table gives it no bits (log 18). -/
def decodeTableWord (nbits w : Nat) : Option Instr :=
  match tableBundle nbits w with
  | none => none
  | some b =>
    match decode b [] with
    | .error _ => none
    | .ok i => some i

end Sys2Proof
end

