-- ==== Sys2Proof/Machine/Fetch.lean ====
section
/-!
DEFINITION. The fetch step as far as the spec gives it (10_state R12, R14; 20_memory R21; 60_exceptions R104;
70_reset_and_hazards R118; U6): where the run has not faulted it takes the transaction the environment presents, needs the
instruction's encoding inside the image, and advances `pc` past it. How the environment reads the bytes is out of scope (R3):
log 1.
-/

namespace Sys2Proof.Machine

/-- The environment presents one more transaction, after those that wait (R36). -/
def present (t : Transaction) (s : State) : State := { s with inbox := s.inbox ++ [t] }

/-- Fetch: the next transaction and the state with `pc` "past the instruction's own encoding". The encoding is at least the
byte at `pc`; where it is not inside the image the fetch faults with `OutOfBounds` (U6, R21). DEDUCED, log 3. After a recorded
fault no further step of the run is taken: the fault stands (R104, U10). -/
def fetch (s : State) : Host.Outcome (Transaction × State) Fault Refusal :=
  match s.fault with
  | some f => .fault f
  | none =>
    match s.inbox with
    | [] => .refused .noTransaction
    | t :: rest =>
      if inBounds s.memSize s.pc (max 1 t.length) then
        .next (t, { s with pc := s.pc + (t.length : Int), inbox := rest })
      else .fault (.fetchOutOfBounds s.pc)

/-- What a table word is presented as: a one-byte encoding and an empty sideband (log 2, log 18). -/
def tableTransaction (b : BundleWord) : Transaction := ⟨b, [], 1⟩

/-- The word of an opcode-table row presented as the next transaction; a number that is no bundle presents nothing. -/
def presentTableWord (s : State) (nbits w : Nat) : State :=
  match tableBundle nbits w with
  | some b => { s with inbox := tableTransaction b :: s.inbox }
  | none => { s with inbox := [] }

end Sys2Proof.Machine
end

