-- ==== Sys2Proof/Machine/Step.lean ====
section
/-!
DEFINITION. One step (spec 30_encoding R36, 40_numeric_units R64): fetch, the check of `WF` that a model owes (R42), and the
dispatch. `exec` sees the `pc` that the fetch step left.
-/

namespace Sys2Proof.Machine

/-- One step of the machine. -/
def step (s : State) : Host.Outcome State Fault Refusal :=
  match fetch s with
  | .fault f => .fault f
  | .refused r => .refused r
  | .next (t, s') =>
    match decode t.bundle t.text with
    | .error e => .refused (.malformed e)
    | .ok i => exec i s'

/-- `s` with a word of the opcode table presented as the next transaction (log 2). -/
def State.withFetchWord (s : State) (nbits w : Nat) : State := presentTableWord s nbits w

end Sys2Proof.Machine
end

