-- ==== Sys2Proof/Machine/Assembler.lean ====
section
/-!
DEFINITION. The notation of spec 30_encoding R47 as abstract syntax: the 19 mnemonics, their arguments, polarity and
displacement, and destination, and the bundle each stands for. The characters of the notation are not parsed (log 26).
-/

namespace Sys2Proof.Machine

/-- The 19 mnemonics of R43. -/
inductive Mnemonic where
  | jump | je | jg | jl | jin | print | printAddr | printChar
  | add | sub | mul | div | mod | not | or | and | store | storeb | storew
  deriving DecidableEq, Repr

/-- The opcode tag of a mnemonic (R43). -/
def mnemonicTag : Mnemonic → BitVec 5
  | .jump => 0
  | .je => 1
  | .jg => 2
  | .jl => 3
  | .jin => 4
  | .print => 5
  | .printAddr => 6
  | .printChar => 7
  | .add => 8
  | .sub => 9
  | .mul => 10
  | .div => 11
  | .mod => 12
  | .not => 13
  | .or => 14
  | .and => 15
  | .store => 16
  | .storeb => 17
  | .storew => 18

/-- `arg := number | name`; a name stands for the value resolved from a variable (R47). -/
inductive Arg where
  | num (n : Int)
  | var (d : VarRef)
  deriving DecidableEq, Repr

/-- One written instruction (R47): arguments in order, `branch_true`/`branch_false` with `disp=`, the string of `PRINT`, and
`-> dest`. -/
structure Asm where
  mnemonic : Mnemonic
  args : List Arg
  branch : Option (Bool × Int)
  text : Text
  dest : Option VarRef
  deriving DecidableEq, Repr

/-- The bundle of a written instruction whose arguments have the values `ops`: a number is encoded as `trunc16` (R47). A
bundle has room for `MAX_OPS` operands (R37). -/
def asmBundle (a : Asm) (ops : List Word16) : Option Bundle :=
  if ops.length ≤ Config.maxOps then
    let b := opsBundle (mnemonicTag a.mnemonic) ops
    let b := match a.branch with
      | some (pol, disp) => b.withBranch ⟨trunc16 disp, pol⟩
      | none => b
    some (match a.dest with
      | some d => b.withDest d
      | none => b)
  else none

end Sys2Proof.Machine
end

