-- ==== Sys2Proof/Machine/RunEnd.lean ====
section
/-!
DEFINITION. The state that a step leaves, also where the step faults: what `execute` returns beside the status (spec
40_numeric_units R64; 60_exceptions R103, R104; 93_implementation_defined U6, U10), and the end of a run. `step` answers a fault
without a state; these two give it.
-/

namespace Sys2Proof.Machine

/-- The state after one step. A step that completes leaves its next state. An instruction that raises leaves the state it ran
on, `pc` after the failing instruction, with the fault recorded. A fetch that faults leaves everything as it was and records the
fault (log 31). A refused step has no state. -/
def stepEnd (s : State) : Option State :=
  match step s with
  | .next t => some t
  | .refused _ => none
  | .fault f =>
    match fetch s with
    | .next (_, s') => some (faulted f s')
    | .fault _ => some (recordFault f s)
    | .refused _ => none

/-- The state after `k` steps of the run; after a fault no further step is taken, so its faulted end stays (R104). -/
def runEnd : Nat → State → Option State
  | 0, s => some s
  | k + 1, s => (stepEnd s).bind (runEnd k)

end Sys2Proof.Machine
end

