-- ==== Sys2Proof/Machine/Harness.lean ====
section
/-!
DEFINITION. The spec's test harness (decision D25, 70_reset_and_hazards R123, 95_test_vectors Part 3): a program table stands
in for the unknown fetch and decode. It is the spec's own device and no part of the hardware: `step` does not use it.
-/

namespace Sys2Proof.Machine

/-- One row of a program table: address, encoded length, template (D25). -/
structure ProgramRow where
  addr : Int
  length : Nat
  instr : Asm
  deriving DecidableEq, Repr

/-- What the harness calls an error of its own (D25). -/
inductive HarnessError where
  /-- No entry stands at `pc`. -/
  | noEntry (pc : Int)
  /-- A template names a variable that no step has written. -/
  | unwrittenVariable
  /-- A template has more arguments than a bundle has slots. -/
  | tooManyOperands
  deriving DecidableEq, Repr

/-- The value of an argument: a number as `trunc16`, a variable as `VAR` holds it, if some step has written it (D25, R18). -/
def resolveArg (s : State) : Arg → Option Word16
  | .num n => some (trunc16 n)
  | .var d => tableGet s.vars d.toNat

/-- The values of a template's arguments in order. -/
def resolveArgs (s : State) : List Arg → Option (List Word16)
  | [] => some []
  | a :: rest =>
    match resolveArg s a, resolveArgs s rest with
    | some v, some vs => some (v :: vs)
    | _, _ => none

/-- The harness's faulted end: a fatal status is recorded with the run (D25, R123). -/
def harnessFaulted (s : State) : Bool := s.fault.isSome

/-- The harness presents the instruction that stands at `pc`, its operands resolved (D25). After a fault no further step of the run
is taken, so nothing more is presented (R104). -/
def harnessPresent (program : List ProgramRow) (s : State) : Except HarnessError State :=
  if harnessFaulted s then .ok s
  else
    match program.find? (fun r => decide (r.addr = s.pc)) with
    | none => .error (.noEntry s.pc)
    | some r =>
      match resolveArgs s r.instr.args with
      | none => .error .unwrittenVariable
      | some ops =>
        match asmBundle r.instr ops with
        | none => .error .tooManyOperands
        | some b => .ok (present ⟨pack b, r.instr.text, r.length⟩ s)

/-- One harness step: present, then one step of the machine (D25). -/
def harnessStep (program : List ProgramRow) (s : State) : Except HarnessError Result :=
  match harnessPresent program s with
  | .error e => .error e
  | .ok s' => .ok (step s')

/-- The state after one harness step; `none` where the machine refuses the step (D25). -/
def harnessStepEnd (program : List ProgramRow) (s : State) : Except HarnessError (Option State) :=
  match harnessPresent program s with
  | .error e => .error e
  | .ok s' => .ok (stepEnd s')

/-- The harness's normal end: `pc` equals the designated end address and no fault is recorded, since a faulted end is never a
successful one (R123, R104). It says nothing of the real interpreter. -/
def harnessEnded (endAddr : Int) (s : State) : Bool := decide (s.pc = endAddr) && !harnessFaulted s

end Sys2Proof.Machine
end

