-- ==== Sys2Proof/Safety.lean ====
section
/-!
DEFINITION. What counts as a safe run, the invariant of the machine, and what a step is a function of, in the terms the
statements use (spec 10_state R10, R14, R18; 60_exceptions R102 to R106; U4).
-/

namespace Sys2Proof.Machine

/-- A launch the spec admits (R4, R14, R18): an image of an admitted size and `0 <= PC_INIT <= MEM_SIZE`. -/
def LaunchOk (image : List Byte) (pcInit : Int) : Prop :=
  1 ≤ image.length ∧ image.length ≤ Config.memSizeMax ∧ 0 ≤ pcInit ∧ pcInit ≤ (image.length : Int)

/-- The caller's duty on `pc` when a step starts (R14, R118). -/
def PcInRange (s : State) : Prop := 0 ≤ s.pc ∧ s.pc ≤ (s.memSize : Int)

/-- An integer fits the two's-complement register of `PCW` bits (R14), for the `PCW` of log 30. -/
def FitsPc (p : Int) : Prop := -(2 ^ (Config.pcWidth - 1) : Int) ≤ p ∧ p < (2 ^ (Config.pcWidth - 1) : Int)

/-- The invariant of the machine: an image of an admitted size in canonical form, variables keyed by 16 bits and in canonical
form, `pc` where a step can leave it, a status that is not fatal, no fault recorded, and a run mark that no `UNIMPLEMENTED` step
escapes. -/
structure Inv (s : State) : Prop where
  size : 1 ≤ s.memSize ∧ s.memSize ≤ Config.memSizeMax
  memory : Memory.wf s.memSize s.mem
  varsForm : TableRising s.vars ∧ ∀ c ∈ s.vars, c.1 < 2 ^ 16
  pcRange : -32770 ≤ s.pc ∧ s.pc ≤ (s.memSize : Int) + 32765
  statusNotFatal : statusFatal s.status = false
  noFault : s.fault = none
  marked : s.status = .unimplemented → s.unimplemented = true

/-- The parts of a state that a step reads agree: everything but `VAR`, `OUT`, the last status and the run mark (R10, R11). Of
these the run status is read by the caller alone (R104). -/
structure SameInputs (s u : State) : Prop where
  memSize : s.memSize = u.memSize
  mem : s.mem = u.mem
  pc : s.pc = u.pc
  fault : s.fault = u.fault
  inbox : s.inbox = u.inbox
  readerRows : s.readerRows = u.readerRows

/-! ## What one instruction does and leaves alone -/

/-- `i` is encoded with this tag, these operands in order, this branch descriptor and this store destination, if any (R41 to
R43). -/
def EncodesAs (i : Instr) (tag : BitVec 5) (ops : List Word16) (br : Option Branch) (dest : Option VarRef) : Prop :=
  i.bundle.tag = tag ∧ i.bundle.nops.toNat = ops.length ∧
    [i.bundle.op0, i.bundle.op1, i.bundle.op2, i.bundle.op3].take ops.length = ops ∧
    (if i.bundle.brValid then some i.bundle.branch else none) = br ∧
    (if i.bundle.stValid then some i.bundle.stDest else none) = dest

/-- From `s` to `t` the variable `d` takes the value `v`; every other variable, every byte, `pc`, `OUT` and all else is
unchanged, and the status is `OK` (R15, R34). -/
structure StoresOnly (d : VarRef) (v : Word16) (s t : State) : Prop where
  stored : readVar d t = v
  others : ∀ e : VarRef, e ≠ d → readVar e t = readVar e s
  memSize : t.memSize = s.memSize
  mem : t.mem = s.mem
  pc : t.pc = s.pc
  out : t.out = s.out
  status : t.status = .ok
  unimplemented : t.unimplemented = s.unimplemented
  fault : t.fault = s.fault
  inbox : t.inbox = s.inbox
  readerRows : t.readerRows = s.readerRows

/-- From `s` to `t` the bytes from address `a` on are `bytes`; every byte at any other address, every variable, `pc`, `OUT` and
all else is unchanged, and the status is `OK` (R22, R23). -/
structure WritesOnly (a : Int) (bytes : List Byte) (s t : State) : Prop where
  written : ∀ k : Nat, ∀ h : k < bytes.length, Memory.read t.mem (a.toNat + k) = bytes[k]
  others : ∀ x : Nat, ((x : Int) < a ∨ a + (bytes.length : Int) ≤ (x : Int)) →
    Memory.read t.mem x = Memory.read s.mem x
  memSize : t.memSize = s.memSize
  vars : t.vars = s.vars
  pc : t.pc = s.pc
  out : t.out = s.out
  status : t.status = .ok
  unimplemented : t.unimplemented = s.unimplemented
  fault : t.fault = s.fault
  inbox : t.inbox = s.inbox
  readerRows : t.readerRows = s.readerRows

/-- A safe run of `k` steps: no fault is recorded at its end, it meets no fault and no refusal, and it executes no unimplemented
opcode (R104, R106, U4). -/
def SafeRun (k : Nat) (s : State) : Prop :=
  ∃ t : State, Host.Core.run Sys2Proof.core k s = .next t ∧ t.fault = none ∧ t.unimplemented = false

end Sys2Proof.Machine
end

