-- ==== Sys2Proof/Certificates/Slice0/Obligations.lean ====
section
/-!
DEFINITION. The statements for the provers, each from a numbered rule of the spec or from its sections. A statement about a
value the spec leaves free (`Config.versionOf`, `Config.readString`, `Config.translate`, `Config.varInit`) holds for every
value of it.
-/

open Sys2Proof Sys2Proof.Machine

/-! ## The instructions, one by one: encoding, result, frame -/

/-- R72: `pc <- pc + signed(op[0]) - 2`; nothing else changes; status `OK`. -/
def Obligations.JumpMovesPcByDisplacement : Prop :=
  ∀ (d : Word16) (s : State), EncodesAs (.jump d) 0 [d] none none ∧
    exec (.jump d) s = .next { s with pc := s.pc + d.toInt - 2, status := .ok }

/-- R73 with R71: the condition is that some comparison operand equals `op[0]` (false where there is none); the branch is
taken iff the condition equals the polarity. -/
def Obligations.JeBranchesOnAnyEqual : Prop :=
  ∀ (a : Word16) (cs : List Word16) (br : Branch) (s : State), cs.length ≤ 3 →
    EncodesAs (.je a cs br) 1 (a :: cs) (some br) none ∧
    exec (.je a cs br) s =
      .next { s with pc := if decide (a ∈ cs) = br.pol then s.pc + br.disp.toInt - 2 else s.pc, status := .ok }

/-- R74 with R71: the condition is signed greater-than. -/
def Obligations.JgBranchesOnSignedGreater : Prop :=
  ∀ (a b : Word16) (br : Branch) (s : State), EncodesAs (.jg a b br) 2 [a, b] (some br) none ∧
    exec (.jg a b br) s =
      .next { s with pc := if decide (b.toInt < a.toInt) = br.pol then s.pc + br.disp.toInt - 2 else s.pc, status := .ok }

/-- R75 with R71: the condition is signed less-than. -/
def Obligations.JlBranchesOnSignedLess : Prop :=
  ∀ (a b : Word16) (br : Branch) (s : State), EncodesAs (.jl a b br) 3 [a, b] (some br) none ∧
    exec (.jl a b br) s =
      .next { s with pc := if decide (a.toInt < b.toInt) = br.pol then s.pc + br.disp.toInt - 2 else s.pc, status := .ok }

/-- R76 with R106: whatever it carries, `JIN` changes no state; its status is `UNIMPLEMENTED` and the run is marked. The mark's
field in State is the model's choice (log 11). -/
def Obligations.JinOnlyReportsUnimplemented : Prop :=
  ∀ (x : Unread) (s : State), (Instr.jin x).bundle.tag = 4 ∧
    exec (.jin x) s = .next { s with status := .unimplemented, unimplemented := true }

/-- R66 with R106: the instructions of the reserved tags change no state; their status is `UNIMPLEMENTED` and the run is marked.
The mark's field in State is the model's choice (log 11). `ReservedWordsNeverTrap` and `TagAloneSelectsOpcode` tie the
instructions to their tags. -/
def Obligations.ReservedOnlyReportUnimplemented : Prop :=
  ∀ (x : Unread) (l2 : BitVec 2) (l3 : BitVec 3) (s : State),
    exec (.reserved19 x) s = .next { s with status := .unimplemented, unimplemented := true } ∧
    exec (.reserved20to23 l2 x) s = .next { s with status := .unimplemented, unimplemented := true } ∧
    exec (.reserved24to31 l3 x) s = .next { s with status := .unimplemented, unimplemented := true }

/-- R44 with R66, R76: every word whose tag is 4 or 19 to 31 decodes, whatever else stands in it, and runs as an
unimplemented opcode: no trap, no state change, the run marked (R106, U4). The mark's field in State is the model's choice
(log 11). -/
def Obligations.ReservedWordsNeverTrap : Prop :=
  ∀ (w : BundleWord) (text : Text) (s : State),
    ((w.extractLsb' 0 5).toNat = 4 ∨ 19 ≤ (w.extractLsb' 0 5).toNat) →
    ∃ i, decode w text = .ok i ∧ exec i s = .next { s with status := .unimplemented, unimplemented := true }

/-- R81: the text is appended verbatim as one element; nothing else changes. -/
def Obligations.PrintAppendsItsText : Prop :=
  ∀ (x : Text) (s : State), EncodesAs (.print x) 5 [] none none ∧ (Instr.print x).text = x ∧
    exec (.print x) s = .next { s with out := s.out ++ [x], status := .ok }

/-- R82: where the string reader answers units, their translation under the current version is emitted and `pc` does not
move; where it fails the step raises `OutOfBounds(op[0])`; and it fails outside the image. -/
def Obligations.PrintAddrEmitsTheStringRead : Prop :=
  ∀ (a : Word16) (s : State), EncodesAs (.printAddr a) 6 [a] none none ∧
    (∀ (len : Int) (units : List SymbolUnit), readString (a.toNat : Int) 0 s = some (len, units) →
      exec (.printAddr a) s =
        .next { s with
          out := s.out ++ [Config.translate Config.sel0 (Config.versionOf (Memory.image s.memSize s.mem)) units],
          status := .ok }) ∧
    (readString (a.toNat : Int) 0 s = none → exec (.printAddr a) s = .fault (.outOfBounds (a.toNat : Int))) ∧
    (s.memSize ≤ a.toNat → exec (.printAddr a) s = .fault (.outOfBounds (a.toNat : Int)))

/-- R83: the one-element list `[op[0]]` is translated under the current version and emitted. -/
def Obligations.PrintCharEmitsOneUnit : Prop :=
  ∀ (u : SymbolUnit) (s : State), EncodesAs (.printChar u) 7 [u] none none ∧
    exec (.printChar u) s =
      .next { s with
        out := s.out ++ [Config.translate Config.sel0 (Config.versionOf (Memory.image s.memSize s.mem)) [u]],
        status := .ok }

/-- R86: the sum of the signed operands, truncated, into `VAR[dest]`; the stored bits are the sum modulo 65536. What a sum that
does not fit becomes rests on the spec's general-knowledge passage G2 (log 19). -/
def Obligations.AddStoresTruncatedSum : Prop :=
  ∀ (a b : Word16) (d : VarRef) (s : State), EncodesAs (.add a b d) 8 [a, b] none (some d) ∧
    BitVec.ofInt 16 (a.toInt + b.toInt) = a + b ∧
    ∃ t, exec (.add a b d) s = .next t ∧ StoresOnly d (BitVec.ofInt 16 (a.toInt + b.toInt)) s t

/-- R87: minuend `op[0]`, subtrahend `op[1]`. A difference that does not fit: G2 (log 19). -/
def Obligations.SubStoresTruncatedDifference : Prop :=
  ∀ (a b : Word16) (d : VarRef) (s : State), EncodesAs (.sub a b d) 9 [a, b] none (some d) ∧
    BitVec.ofInt 16 (a.toInt - b.toInt) = a - b ∧
    ∃ t, exec (.sub a b d) s = .next t ∧ StoresOnly d (BitVec.ofInt 16 (a.toInt - b.toInt)) s t

/-- R88: the low 16 bits of the signed product. A product that does not fit: G2 (log 19). -/
def Obligations.MulStoresLowProduct : Prop :=
  ∀ (a b : Word16) (d : VarRef) (s : State), EncodesAs (.mul a b d) 10 [a, b] none (some d) ∧
    BitVec.ofInt 16 (a.toInt * b.toInt) = a * b ∧
    ∃ t, exec (.mul a b d) s = .next t ∧ StoresOnly d (BitVec.ofInt 16 (a.toInt * b.toInt)) s t

/-- R89: for a non-zero divisor the quotient truncated toward zero (Lean's `tdiv`) is stored, truncated to 16 bits; a zero
divisor raises `DivideByZero`, whatever the dividend, and stores nothing. The one quotient that does not fit: G2 (log 19). -/
def Obligations.DivStoresTruncatingQuotient : Prop :=
  ∀ (a b : Word16) (d : VarRef) (s : State), EncodesAs (.div a b d) 11 [a, b] none (some d) ∧
    (b ≠ 0 → ∃ t, exec (.div a b d) s = .next t ∧ StoresOnly d (BitVec.ofInt 16 (a.toInt.tdiv b.toInt)) s t) ∧
    (b = 0 → exec (.div a b d) s = .fault .divideByZero)

/-- R90: for a non-zero divisor the remainder with the dividend's sign (Lean's `tmod`) is stored, always fits, and meets the
division identity; a zero divisor raises `DivideByZero`. -/
def Obligations.ModStoresDividendSignedRemainder : Prop :=
  ∀ (a b : Word16) (d : VarRef) (s : State), EncodesAs (.mod a b d) 12 [a, b] none (some d) ∧
    (b ≠ 0 → (∃ t, exec (.mod a b d) s = .next t ∧ StoresOnly d (BitVec.ofInt 16 (a.toInt.tmod b.toInt)) s t) ∧
      (BitVec.ofInt 16 (a.toInt.tmod b.toInt)).toInt = a.toInt.tmod b.toInt ∧
      a.toInt = b.toInt * a.toInt.tdiv b.toInt + a.toInt.tmod b.toInt) ∧
    (b = 0 → exec (.mod a b d) s = .fault .divideByZero)

/-- R93 with R62: the 16-bit one's complement of the raw operand: `65535 - op[0]`, every bit inverted, twice is nothing; in
signed terms `-signed(op[0]) - 1`. -/
def Obligations.NotStoresComplement : Prop :=
  ∀ (a : Word16) (d : VarRef) (s : State), EncodesAs (.not a d) 13 [a] none (some d) ∧
    (not16 a).toNat = 65535 - a.toNat ∧ (∀ k : Nat, k < 16 → (not16 a).getLsbD k = !a.getLsbD k) ∧ not16 (not16 a) = a ∧
    signed (not16 a) = -signed a - 1 ∧
    ∃ t, exec (.not a d) s = .next t ∧ StoresOnly d (~~~a) s t

/-- R94, R95: bitwise OR and AND of the two raw operands. -/
def Obligations.OrAndStoreBitwiseResults : Prop :=
  ∀ (a b : Word16) (d : VarRef) (s : State),
    (EncodesAs (.or a b d) 14 [a, b] none (some d) ∧
      ∃ t, exec (.or a b d) s = .next t ∧ StoresOnly d (a ||| b) s t) ∧
    (EncodesAs (.and a b d) 15 [a, b] none (some d) ∧
      ∃ t, exec (.and a b d) s = .next t ∧ StoresOnly d (a &&& b) s t)

/-- R97: `op[1]` raw into the variable `op[0]`; no store destination field is used. -/
def Obligations.StoreWritesNamedVariable : Prop :=
  ∀ (v : VarRef) (x : Word16) (s : State), EncodesAs (.store v x) 16 [v, x] none none ∧
    ∃ t, exec (.store v x) s = .next t ∧ StoresOnly v x s t

/-- R98: the low byte of `op[2]` at `op[0] + signed(op[1])`, formed without wrap; outside the image `OutOfBounds` with that
address, and nothing is written. -/
def Obligations.StorebWritesOneByte : Prop :=
  ∀ (base offset v : Word16) (s : State), EncodesAs (.storeb base offset v) 17 [base, offset, v] none none ∧
    byteAddress base offset = (base.toNat : Int) + offset.toInt ∧
    (0 ≤ byteAddress base offset → byteAddress base offset ≤ (s.memSize : Int) - 1 →
      ∃ t, exec (.storeb base offset v) s = .next t ∧
        WritesOnly (byteAddress base offset) [v.extractLsb' 0 8] s t) ∧
    (byteAddress base offset < 0 ∨ byteAddress base offset > (s.memSize : Int) - 1 →
      exec (.storeb base offset v) s = .fault (.outOfBounds (byteAddress base offset)))

/-- R99: the word `op[2]`, most significant byte first, at `op[0] + 2*signed(op[1])`, formed without wrap; where either byte
is outside the image `OutOfBounds`, and neither is written. Which byte lies lower rests on the spec's general-knowledge passage
G1 (log 19). -/
def Obligations.StorewWritesBigEndianWord : Prop :=
  ∀ (base offset v : Word16) (s : State), EncodesAs (.storew base offset v) 18 [base, offset, v] none none ∧
    wordAddress base offset = (base.toNat : Int) + 2 * offset.toInt ∧
    (0 ≤ wordAddress base offset → wordAddress base offset + 1 ≤ (s.memSize : Int) - 1 →
      ∃ t, exec (.storew base offset v) s = .next t ∧
        WritesOnly (wordAddress base offset) [v.extractLsb' 8 8, v.extractLsb' 0 8] s t) ∧
    (wordAddress base offset < 0 ∨ wordAddress base offset + 1 > (s.memSize : Int) - 1 →
      exec (.storew base offset v) s = .fault (.outOfBounds (wordAddress base offset)))

/-! ## The numeric units -/

/-- R51: `signed` and its two branches, a bijection onto `-32768 .. 32767`. -/
def Obligations.SignedIsBijectionOntoRange : Prop :=
  (∀ v : Word16, v.getLsbD 15 = true → signed v = (v.toNat : Int) - 65536) ∧
  (∀ v : Word16, v.getLsbD 15 = false → signed v = (v.toNat : Int)) ∧
  (∀ v : Word16, -32768 ≤ signed v ∧ signed v ≤ 32767) ∧
  (∀ v w : Word16, signed v = signed w → v = w) ∧
  (∀ x : Int, -32768 ≤ x → x ≤ 32767 → ∃ v : Word16, signed v = x)

/-- R52 to R54: `trunc16` is the remainder modulo 65536, `unsigned` is the same function, and the round-trip laws. Outside
`-32768 .. 32767` the remainder is the spec's general-knowledge passage G2 (log 19). -/
def Obligations.TruncationRoundTrips : Prop :=
  (∀ x : Int, ((trunc16 x).toNat : Int) = x % 65536) ∧ (∀ x : Int, unsigned x = trunc16 x) ∧
  (∀ v : Word16, signed (unsigned (signed v)) = signed v) ∧ (∀ v : Word16, trunc16 (signed v) = v) ∧
  (∀ x : Int, -32768 ≤ x → x ≤ 32767 → signed (trunc16 x) = x) ∧
  (∀ x y : Int, trunc16 x = trunc16 y ↔ (65536 : Int) ∣ x - y)

/-- R55: the exact results lie in the stated ranges, and the truncated ones are the raw operands' results modulo 65536.
The spec marks the modular forms as derived, and results that do not fit rest on G2 (log 19). -/
def Obligations.AluAgreesWithModularArithmetic : Prop :=
  ∀ a b : Word16,
    add16 a b = trunc16 (signed a + signed b) ∧ sub16 a b = trunc16 (signed a - signed b) ∧
    mul16 a b = trunc16 (signed a * signed b) ∧
    (-65536 ≤ signed a + signed b ∧ signed a + signed b ≤ 65534) ∧
    (-65535 ≤ signed a - signed b ∧ signed a - signed b ≤ 65535) ∧
    (-1073709056 ≤ signed a * signed b ∧ signed a * signed b ≤ 1073741824) ∧
    (add16 a b).toNat = (a.toNat + b.toNat) % 65536 ∧
    ((sub16 a b).toNat : Int) = ((a.toNat : Int) - (b.toNat : Int)) % 65536 ∧
    (mul16 a b).toNat = (a.toNat * b.toNat) % 65536

/-- R63: equality is equality of the signed values, the comparisons are signed, exactly one of the three holds, and the logic
is bit by bit on the raw operands. -/
def Obligations.ComparisonsAreSignedAndTrichotomous : Prop :=
  ∀ a b : Word16, (eq16 a b = true ↔ a = b) ∧ (eq16 a b = true ↔ signed a = signed b) ∧
    (gt16 a b = true ↔ signed a > signed b) ∧ (lt16 a b = true ↔ signed a < signed b) ∧ gt16 a b = lt16 b a ∧
    ((eq16 a b = true ∧ gt16 a b = false ∧ lt16 a b = false) ∨ (eq16 a b = false ∧ gt16 a b = true ∧ lt16 a b = false) ∨
      (eq16 a b = false ∧ gt16 a b = false ∧ lt16 a b = true)) ∧
    (∀ i : Nat, (or16 a b).getLsbD i = (a.getLsbD i || b.getLsbD i)) ∧
    (∀ i : Nat, (and16 a b).getLsbD i = (a.getLsbD i && b.getLsbD i))

/-- R56: the quotient has the magnitude `floor(|a|/|b|)` and the sign of the exact ratio; it is truncation toward zero, and
for `b = 0` it has no value. -/
def Obligations.QuotientTruncatesTowardZero : Prop :=
  ∀ a b : Int, quotient a 0 = none ∧
    (b ≠ 0 → ∃ q, quotient a b = some q ∧ q.natAbs = a.natAbs / b.natAbs ∧ (0 ≤ a * b → 0 ≤ q) ∧ (a * b ≤ 0 → q ≤ 0) ∧
      q = a.tdiv b)

/-- R58 with R57: the one quotient that does not fit is `-32768 / -1`, stored as `0x8000`; every other stored quotient reads
back exact; a zero divisor gives no value. -/
def Obligations.OnlyOneQuotientOverflows : Prop :=
  ∀ a b : Word16, sdeUnit a 0 = none ∧ (b ≠ 0 → ∃ q, sdeUnit a b = some q ∧
    ((a = 0x8000 ∧ b = 0xFFFF) → q = 0x8000) ∧
    (¬ (a = 0x8000 ∧ b = 0xFFFF) → signed q = (signed a).tdiv (signed b)))

/-- R59: the remainder is `0` or has the dividend's sign, is smaller than the divisor, and has no value for `b = 0`. -/
def Obligations.RemainderFollowsDividend : Prop :=
  ∀ a b : Int, remainder a 0 = none ∧
    (b ≠ 0 → ∃ r, remainder a b = some r ∧ r.natAbs = a.natAbs % b.natAbs ∧ r.natAbs < b.natAbs ∧
      (0 ≤ a → 0 ≤ r) ∧ (a ≤ 0 → r ≤ 0))

/-- R60: the MT's output always reads back as the exact remainder; a zero divisor gives no value. -/
def Obligations.StoredRemainderIsExact : Prop :=
  ∀ a b : Word16, mtUnit a 0 = none ∧
    (b ≠ 0 → ∃ r, mtUnit a b = some r ∧ signed r = (signed a).tmod (signed b) ∧ (signed r).natAbs ≤ 32767)

/-- R61: `a == b * quotient(a, b) + remainder(a, b)` for every `a` and every `b != 0`. -/
def Obligations.DivisionIdentityHolds : Prop :=
  ∀ a b : Int, b ≠ 0 → ∃ q r, quotient a b = some q ∧ remainder a b = some r ∧ a = b * q + r

/-- R69: the magnitude datapath realises both units. -/
def Obligations.MagnitudeDatapathRealisesUnits : Prop :=
  ∀ a b : Word16, (b = 0 → divideDatapath a b = none) ∧
    (b ≠ 0 → ∃ q r, divideDatapath a b = some (q, r) ∧ sdeUnit a b = some q ∧ mtUnit a b = some r)

/-! ## Memory, addresses, branch targets -/

/-- R21: an access succeeds iff all its bytes are inside the image, else it answers `OutOfBounds` with its address. -/
def Obligations.AccessFailsIffOutsideImage : Prop :=
  ∀ (a : Int) (v : Word16) (s : State),
    (writeByte a v s = .error (.outOfBounds a) ↔ (a < 0 ∨ a > (s.memSize : Int) - 1)) ∧
    (writeWord a v s = .error (.outOfBounds a) ↔ (a < 0 ∨ a + 1 > (s.memSize : Int) - 1)) ∧
    (readByte a s = .error (.outOfBounds a) ↔ (a < 0 ∨ a > (s.memSize : Int) - 1)) ∧
    (readWord a s = .error (.outOfBounds a) ↔ (a < 0 ∨ a + 1 > (s.memSize : Int) - 1)) ∧
    ((∃ t, writeWord a v s = .ok t) ↔ (0 ≤ a ∧ a + 1 ≤ (s.memSize : Int) - 1)) ∧
    ((∃ t, writeByte a v s = .ok t) ↔ (0 ≤ a ∧ a ≤ (s.memSize : Int) - 1))

/-- R24 and the mixed-width accesses of R28: bytes and words are views of the same plain bytes,
big-endian. The order within a word is G1 (log 19). -/
def Obligations.MixedWidthAccessesSeePlainBytes : Prop :=
  (∀ (a : Int) (v : Word16) (s t : State), writeWord a v s = .ok t →
    readWord a t = .ok v ∧ readByte a t = .ok (v.extractLsb' 8 8) ∧ readByte (a + 1) t = .ok (v.extractLsb' 0 8)) ∧
  (∀ (a : Int) (v : Word16) (s t : State), writeByte a v s = .ok t →
    readByte a t = .ok (v.extractLsb' 0 8) ∧
    (a + 1 ≤ (s.memSize : Int) - 1 → ∃ w, readWord a t = .ok w ∧ w.extractLsb' 8 8 = v.extractLsb' 0 8))

/-- R27: the addresses of the two stores and of `PRINT_ADDR` (the raw `base`) are exact, in the stated ranges, and fit a 19-bit
two's-complement port. -/
def Obligations.EffectiveAddressesAreExact : Prop :=
  ∀ base offset : Word16,
    byteAddress base offset = (base.toNat : Int) + signed offset ∧
    wordAddress base offset = (base.toNat : Int) + 2 * signed offset ∧
    (-32768 ≤ byteAddress base offset ∧ byteAddress base offset ≤ 98302) ∧
    (-65536 ≤ wordAddress base offset ∧ wordAddress base offset ≤ 131069) ∧
    (0 ≤ (base.toNat : Int) ∧ (base.toNat : Int) ≤ 65535) ∧
    (-(2 ^ 18) ≤ byteAddress base offset ∧ byteAddress base offset < 2 ^ 18) ∧
    (-(2 ^ 18) ≤ wordAddress base offset ∧ wordAddress base offset < 2 ^ 18)

/-- R70, R14: a target is exact, lies in `pc - 32770 .. pc + 32765`, and from a `pc` the caller may present it fits the
`PCW`-bit register, so wrap-around never arises. `PCW` is OPEN
in the spec, and the last clause rests on its default 32 (log 30). -/
def Obligations.BranchTargetsNeverWrap : Prop :=
  ∀ (s : State) (d : Word16), branchTarget s.pc d = s.pc + d.toInt - 2 ∧
    s.pc - 32770 ≤ branchTarget s.pc d ∧ branchTarget s.pc d ≤ s.pc + 32765 ∧
    (PcInRange s → s.memSize ≤ Config.memSizeMax → FitsPc (branchTarget s.pc d))

/-- R119: the displacement of an encoder exists iff `T - A + 2` is in range, and a branch with it reaches `T`. -/
def Obligations.DisplacementReachesItsTarget : Prop :=
  ∀ target after : Int,
    ((∃ d, displacementTo target after = some d) ↔ (-32768 ≤ target - after + 2 ∧ target - after + 2 ≤ 32767)) ∧
    (∀ d, displacementTo target after = some d → d = trunc16 (target - after + 2) ∧ branchTarget after d = target)

/-! ## The encoding -/

/-- R35: the fields stand at their bit positions, and the bundle as an integer is their weighted sum. -/
def Obligations.BundleIsItsFieldsWeighted : Prop :=
  ∀ w : BundleWord,
    w.toNat = (w.extractLsb' 0 5).toNat + (w.extractLsb' 5 3).toNat * 2 ^ 5 + (w.extractLsb' 8 16).toNat * 2 ^ 8 +
      (w.extractLsb' 24 16).toNat * 2 ^ 24 + (w.extractLsb' 40 16).toNat * 2 ^ 40 + (w.extractLsb' 56 16).toNat * 2 ^ 56 +
      (w.getLsbD 72).toNat * 2 ^ 72 + (w.getLsbD 73).toNat * 2 ^ 73 + (w.extractLsb' 74 16).toNat * 2 ^ 74 +
      (w.getLsbD 90).toNat * 2 ^ 90 + (w.extractLsb' 91 16).toNat * 2 ^ 91 ∧
    unpack w = ⟨w.extractLsb' 0 5, w.extractLsb' 5 3, w.extractLsb' 8 16, w.extractLsb' 24 16, w.extractLsb' 40 16,
      w.extractLsb' 56 16, w.getLsbD 72, w.getLsbD 73, w.extractLsb' 74 16, w.getLsbD 90, w.extractLsb' 91 16⟩ ∧
    pack (unpack w) = w ∧ (∀ b : Bundle, unpack (pack b) = b)

/-- R42: the table of `WF`, line by line: the decoder answers an instruction exactly on these bundles. -/
def Obligations.DecoderAcceptsExactlyWellFormed : Prop :=
  ∀ (w : BundleWord) (text : Text) (tag nops : Nat) (br st : Bool),
    tag = (w.extractLsb' 0 5).toNat → nops = (w.extractLsb' 5 3).toNat → br = w.getLsbD 72 → st = w.getLsbD 90 →
    ((∃ i, decode w text = .ok i) ↔
      ((tag = 0 ∧ nops = 1 ∧ br = false ∧ st = false) ∨
       (tag = 1 ∧ 1 ≤ nops ∧ nops ≤ 4 ∧ br = true ∧ st = false) ∨
       ((tag = 2 ∨ tag = 3) ∧ nops = 2 ∧ br = true ∧ st = false) ∨
       (tag = 4 ∨ 19 ≤ tag) ∨
       (tag = 5 ∧ nops = 0 ∧ br = false ∧ st = false) ∨
       ((tag = 6 ∨ tag = 7) ∧ nops = 1 ∧ br = false ∧ st = false) ∨
       (((8 ≤ tag ∧ tag ≤ 12) ∨ tag = 14 ∨ tag = 15) ∧ nops = 2 ∧ br = false ∧ st = true) ∨
       (tag = 13 ∧ nops = 1 ∧ br = false ∧ st = true) ∨
       (tag = 16 ∧ nops = 2 ∧ br = false ∧ st = false) ∨
       ((tag = 17 ∨ tag = 18) ∧ nops = 3 ∧ br = false ∧ st = false)))

/-- R43: no field but the tag takes part in the selection: a decoded instruction carries the tag of its word. -/
def Obligations.TagAloneSelectsOpcode : Prop :=
  ∀ (w : BundleWord) (text : Text) (i : Instr), decode w text = .ok i → i.bundle.tag = w.extractLsb' 0 5

/-- R37 to R40 (U12): absent operand slots, the branch fields without `br_valid`, the destination without `st_valid`, and the
sideband of every opcode but `PRINT` are not read. -/
def Obligations.AbsentFieldsAreNotRead : Prop :=
  ∀ (b : Bundle) (text other : Text) (x : Word16) (p : Bool),
    (b.nops.toNat ≤ 0 → decode (pack { b with op0 := x }) text = decode (pack b) text) ∧
    (b.nops.toNat ≤ 1 → decode (pack { b with op1 := x }) text = decode (pack b) text) ∧
    (b.nops.toNat ≤ 2 → decode (pack { b with op2 := x }) text = decode (pack b) text) ∧
    (b.nops.toNat ≤ 3 → decode (pack { b with op3 := x }) text = decode (pack b) text) ∧
    (b.brValid = false → decode (pack { b with brPol := p, brDisp := x }) text = decode (pack b) text) ∧
    (b.stValid = false → decode (pack { b with stDest := x }) text = decode (pack b) text) ∧
    (b.tag ≠ 5 → decode (pack b) other = decode (pack b) text)

/-- R49: decoding the words of a well-formed instruction gives it back, with every operand at every value. -/
def Obligations.DecodeOfEncodeIsTheInstruction : Prop :=
  ∀ i : Instr, i.wf = true → decode (encode i) i.text = .ok i

/-- R49: encoding a decoded bundle gives the bundle back exactly where it is canonical. -/
def Obligations.EncodeOfDecodeIsCanonicalWord : Prop :=
  ∀ (w : BundleWord) (text : Text) (i : Instr), decode w text = .ok i →
    (i.wf = true ∧ (encode i = w ↔ (unpack w).canonical = true))

/-- Words the spec prints (95_test_vectors Part 2; `PRINT_ADDR`'s in R82, 42_print section 2) decode to the instructions it
prints beside them, one for each family. -/
def Obligations.PrintedWordsDecode : Prop :=
  decodeTableWord 107 0x000000000000000000000000A20 = some (.jump 10) ∧
  decodeTableWord 107 0x00000002B000900050003000581 = some (.je 5 [3, 5, 9] ⟨10, true⟩) ∧
  decodeTableWord 107 0x00003FFF1000000000003000342 = some (.jg 3 3 ⟨0xFFFC, false⟩) ∧
  decodeTableWord 107 0x000000000000000000000123426 = some (.printAddr 0x1234) ∧
  decodeTableWord 107 0x0009C0000000000000002FFF94B = some (.div 0xFFF9 2 19) ∧
  decodeTableWord 107 0x000AC000000000000000000FF2D = some (.not 0x00FF 21) ∧
  decodeTableWord 107 0x0000000000000BEEFFFFF010072 = some (.storew 0x100 0xFFFF 0xBEEF)

/-! ## The step -/

/-- R64 with R12, R118: where no fault is recorded and the environment presents a well-formed bundle whose encoding is inside the
image, the step is the instruction's, run on the state in which `pc` has advanced past the encoding and the transaction is
consumed. The queue of transactions and the lengths it carries are the model's choice (log 1, log 3). R103, R104: where the
instruction raises, the state that the step leaves is that same state, so nothing is written and `pc` is the address after the
failing instruction, with the fatal status kept and the fault recorded (log 12). -/
def Obligations.StepRunsTheDecodedInstruction : Prop :=
  ∀ (s : State) (x : Transaction) (rest : List Transaction) (i : Instr),
    s.fault = none → s.inbox = x :: rest → 0 ≤ s.pc → s.pc + (max 1 x.length : Nat) ≤ (s.memSize : Int) →
    decode x.bundle x.text = .ok i →
    step s = exec i { s with pc := s.pc + (x.length : Int), inbox := rest } ∧
    (∀ t, step s = .next t → stepEnd s = some t) ∧
    (∀ f, step s = .fault f →
      stepEnd s = some { s with
        pc := s.pc + (x.length : Int), inbox := rest, status := faultStatus f, fault := some f })

/-- U6 with R78: the next fetch faults where the encoding at `pc` is not inside the image. That it faults also where only the
end of the encoding is outside is the model's inference (log 3); that the fetch then leaves all but the record of the fault as it
was is the model's choice (log 31). -/
def Obligations.FetchOutsideImageFaults : Prop :=
  ∀ (s : State) (x : Transaction) (rest : List Transaction),
    s.fault = none → s.inbox = x :: rest → (s.pc < 0 ∨ (s.memSize : Int) < s.pc + (max 1 x.length : Nat)) →
    step s = .fault (.fetchOutOfBounds s.pc) ∧ stepEnd s = some { s with fault := some (.fetchOutOfBounds s.pc) }

/-- U1 with R42: a bundle that fails `WF` is refused, whatever it is, and nothing is done. -/
def Obligations.MalformedBundlesAreRefused : Prop :=
  ∀ (s : State) (x : Transaction) (rest : List Transaction) (e : Malformed),
    s.fault = none → s.inbox = x :: rest → 0 ≤ s.pc → s.pc + (max 1 x.length : Nat) ≤ (s.memSize : Int) →
    decode x.bundle x.text = .error e → step s = .refused (.malformed e) ∧ stepEnd s = none

/-- R123 with R104: a run ends (a) with a fatal status: after it no further step is taken, and the state and the recorded fault
stay, never cleared (log 12); or (b) when nothing more is presented, which the model renders as a refusal (log 2). -/
def Obligations.RunEndsAtAFaultOrWithoutTransaction : Prop :=
  (∀ (s : State) (f : Fault), s.fault = some f → step s = .fault f ∧ ∀ k : Nat, runEnd k s = some s) ∧
  (∀ s : State, s.fault = none → s.inbox = [] → step s = .refused .noTransaction ∧ stepEnd s = none) ∧
  (∀ (s : State) (f : Fault), step s = .fault f →
    ∃ u, stepEnd s = some u ∧ u.fault = some f ∧ u.mem = s.mem ∧ u.vars = s.vars ∧ u.out = s.out ∧
      ∀ k : Nat, runEnd (k + 1) s = some u)

/-- R109, which the spec marks as derived: which statuses each opcode can end with. -/
def Obligations.OnlyTheListedStatusesOccur : Prop :=
  ∀ (i : Instr) (s : State),
    (∀ f, exec i s = .fault f →
      (f = .divideByZero ∧ ((∃ a d, i = .div a 0 d) ∨ (∃ a d, i = .mod a 0 d))) ∨
      ((∃ a, f = .outOfBounds a) ∧
        ((∃ b o v, i = .storeb b o v) ∨ (∃ b o v, i = .storew b o v) ∨ (∃ a, i = .printAddr a)))) ∧
    (∀ r, exec i s ≠ .refused r) ∧
    (∀ t, exec i s = .next t →
      (t.status = .unimplemented ∧ ((∃ x, i = .jin x) ∨ (∃ x, i = .reserved19 x) ∨ (∃ l x, i = .reserved20to23 l x) ∨
        (∃ l x, i = .reserved24to31 l x))) ∨
      (t.status = .ok ∧ (∀ x, i ≠ .jin x) ∧ (∀ x, i ≠ .reserved19 x) ∧ (∀ l x, i ≠ .reserved20to23 l x) ∧
        (∀ l x, i ≠ .reserved24to31 l x)))

/-- R13: `pc` changes only by `JUMP` and by a `JE`, `JG`, `JL`, and then to `pc + signed(d) - 2`. -/
def Obligations.OnlyControlTransferMovesPc : Prop :=
  ∀ (i : Instr) (s t : State), exec i s = .next t → t.pc ≠ s.pc →
    ∃ d : Word16, t.pc = s.pc + d.toInt - 2 ∧
      (i = .jump d ∨ (∃ a cs p, i = .je a cs ⟨d, p⟩) ∨ (∃ a b p, i = .jg a b ⟨d, p⟩) ∨ (∃ a b p, i = .jl a b ⟨d, p⟩))

/-- R33, R34: only `STOREB` and `STOREW` change the image, only the result opcodes and `STORE` change a variable, and neither
changes the other's space. That only the print opcodes change `OUT` is R11, and that none of these moves `pc` is R13. That `VAR`
and the image do not overlap is D26 (log 8). -/
def Obligations.EachInstructionWritesItsOwnSpace : Prop :=
  ∀ (i : Instr) (s t : State), exec i s = .next t →
    (t.mem ≠ s.mem → t.vars = s.vars ∧ t.out = s.out ∧ t.pc = s.pc ∧
      ((∃ b o v, i = .storeb b o v) ∨ (∃ b o v, i = .storew b o v))) ∧
    (t.vars ≠ s.vars → t.mem = s.mem ∧ t.out = s.out ∧ t.pc = s.pc ∧
      ((∃ a b d, i = .add a b d) ∨ (∃ a b d, i = .sub a b d) ∨ (∃ a b d, i = .mul a b d) ∨ (∃ a b d, i = .div a b d) ∨
        (∃ a b d, i = .mod a b d) ∨ (∃ a d, i = .not a d) ∨ (∃ a b d, i = .or a b d) ∨ (∃ a b d, i = .and a b d) ∨
        (∃ d v, i = .store d v))) ∧
    (t.out ≠ s.out → t.mem = s.mem ∧ t.vars = s.vars ∧ t.pc = s.pc ∧
      ((∃ x, i = .print x) ∨ (∃ a, i = .printAddr a) ∨ (∃ u, i = .printChar u)))

/-- R16: `emit` appends one new last element, and no step ever changes an earlier element of `OUT`. -/
def Obligations.OutputOnlyGrowsAtItsEnd : Prop :=
  (∀ (x : Text) (s : State), emit x s = { s with out := s.out ++ [x] }) ∧
  (∀ s t : State, step s = .next t → t.out = s.out ∨ ∃ x, t.out = s.out ++ [x])

/-- R106, U4, the mark held in State (log 11): a step's run mark is the old mark or its own `UNIMPLEMENTED` status: the mark is
never cleared and never set by
an implemented opcode. -/
def Obligations.RunMarkRecordsUnimplemented : Prop :=
  ∀ s t : State, step s = .next t →
    (t.unimplemented = true ↔ (s.unimplemented = true ∨ t.status = .unimplemented))

/-- R117, R25, R36 as the model carries them (log 1, log 13): `MEM_SIZE` and the reader's listed answers are fixed for the
run, and a
step that completes consumes one transaction and records no fault (R104, log 12). -/
def Obligations.StepKeepsConfigurationAndConsumesOne : Prop :=
  ∀ s t : State, step s = .next t →
    t.memSize = s.memSize ∧ t.readerRows = s.readerRows ∧ s.fault = none ∧ t.fault = none ∧ ∃ x, s.inbox = x :: t.inbox

/-- R102: the codes; the fatal statuses are those of code 2 and 3; a fault reports a fatal status. That a
fatal status ends the run as a fault of the machine follows R104 and D19 (log 12). -/
def Obligations.StatusCodesAreAsListed : Prop :=
  statusCode .ok = 0 ∧ statusCode .unimplemented = 1 ∧ statusCode .divideByZero = 2 ∧ statusCode .outOfBounds = 3 ∧
  (∀ x : Status, statusFatal x = true ↔ 2 ≤ (statusCode x).toNat) ∧ (∀ f : Fault, statusFatal (faultStatus f) = true)

/-- R10: a step is a function of its inputs: states that agree on all but `VAR`, `OUT`, the last status and the mark step
alike, end alike, and get the same variable write and the same text. The run status among the inputs is read by the caller, not
by the block (R11, R104; log 12). -/
def Obligations.StepDependsOnItsInputsAlone : Prop :=
  ∀ s u : State, SameInputs s u →
    (∀ t, step s = .next t → ∃ t', step u = .next t' ∧ SameInputs t t' ∧ t.status = t'.status ∧
      ((t.out = s.out ∧ t'.out = u.out) ∨ ∃ x, t.out = s.out ++ [x] ∧ t'.out = u.out ++ [x]) ∧
      ((t.vars = s.vars ∧ t'.vars = u.vars) ∨
        ∃ d v, t.vars = (storeVar d v s).vars ∧ t'.vars = (storeVar d v u).vars)) ∧
    (∀ f, step s = .fault f → step u = .fault f) ∧
    (∀ r, step s = .refused r → step u = .refused r)

/-- The machine completes wherever the spec lets it: in a run that has not faulted a well-formed bundle inside the image whose
opcode meets no zero divisor, no outside address and no failing string read steps to a next state (R102 to R109). -/
def Obligations.StepCompletesUnlessTheSpecFaults : Prop :=
  ∀ (s : State) (x : Transaction) (rest : List Transaction) (i : Instr),
    s.fault = none → s.inbox = x :: rest → 0 ≤ s.pc → s.pc + (max 1 x.length : Nat) ≤ (s.memSize : Int) →
    decode x.bundle x.text = .ok i →
    (∀ a b d, (i = .div a b d ∨ i = .mod a b d) → b ≠ 0) →
    (∀ b o v, i = .storeb b o v → 0 ≤ byteAddress b o ∧ byteAddress b o ≤ (s.memSize : Int) - 1) →
    (∀ b o v, i = .storew b o v → 0 ≤ wordAddress b o ∧ wordAddress b o + 1 ≤ (s.memSize : Int) - 1) →
    (∀ a, i = .printAddr a → readString (a.toNat : Int) 0 s ≠ none) →
    ∃ t, step s = .next t

/-! ## Start of a run, reset, the invariant -/

/-- R18: at the start of a run the image is `IMAGE` byte for byte, `MEM_SIZE` its length, `pc` is `PC_INIT`, `OUT` is empty,
no fault is recorded and no variable is written: each holds the free initial value (log 7). The latched status `OK` and the
clear mark are the model's (log 10, log 11). -/
def Obligations.LaunchLoadsTheImage : Prop :=
  ∀ (image : List Byte) (pcInit : Int) (rows : List ReaderRow),
    (State.launch image pcInit rows).memSize = image.length ∧
    (∀ (k : Nat) (h : k < image.length), readByte (k : Int) (State.launch image pcInit rows) = .ok image[k]) ∧
    Memory.image image.length (State.launch image pcInit rows).mem = image ∧
    (State.launch image pcInit rows).pc = pcInit ∧ (State.launch image pcInit rows).out = [] ∧
    (State.launch image pcInit rows).fault = none ∧
    (State.launch image pcInit rows).status = .ok ∧ (State.launch image pcInit rows).unimplemented = false ∧
    (∀ d : VarRef, readVar d (State.launch image pcInit rows) = Config.varInit d)

/-- R18, R116: after reset `OUT` is empty and no fault is recorded; the latched status and the mark are the model's (log 10,
log 11). -/
def Obligations.ResetRecordsNoFaultAndNoOutput : Prop :=
  State.reset.out = [] ∧ State.reset.fault = none ∧ State.reset.status = .ok ∧ State.reset.unimplemented = false

/-- The machine after reset is a launch the spec admits, of an image of zeros (the values of log 4 to 6), and meets the
invariant. The admitted sizes follow from `PCW = 32` (log 30). -/
def Obligations.ResetMeetsTheInvariant : Prop :=
  State.reset = State.launch (List.replicate Config.resetMemSize 0) Config.resetPc [] ∧
  LaunchOk (List.replicate Config.resetMemSize 0) Config.resetPc ∧ Inv State.reset

/-- R4, R14, R18: every launch the spec admits meets the invariant. The admitted sizes follow from `PCW = 32` (log 30). -/
def Obligations.LaunchMeetsTheInvariant : Prop :=
  ∀ (image : List Byte) (pcInit : Int) (rows : List ReaderRow), LaunchOk image pcInit →
    Inv (State.launch image pcInit rows)

/-- Every step keeps the invariant, from any state that meets it: the image's size and canonical form, the variables' form,
`pc` in `-32770 .. MEM_SIZE + 32765` (R14), a status that is not fatal and no recorded fault (R104), a run mark no `UNIMPLEMENTED`
escapes (R106). The admitted sizes follow from `PCW = 32` (log 30). -/
def Obligations.EveryStepKeepsTheInvariant : Prop :=
  ∀ s t : State, Inv s → step s = .next t → Inv t
end

