-- ==== Sys2Proof/Laws/Decode.lean ====
section
/-!
SUPPORT. The bundle's layout: packing the fields by the integer formula of R35 and reading them at their bit positions agree,
both ways; and what the decoder answers.
-/

namespace Sys2Proof

/-- The integer formula of R35 stays below 2^107. -/
theorem pack_toNat (b : Bundle) :
    (pack b).toNat = b.tag.toNat + b.nops.toNat * 2 ^ 5 + b.op0.toNat * 2 ^ 8 + b.op1.toNat * 2 ^ 24 +
      b.op2.toNat * 2 ^ 40 + b.op3.toNat * 2 ^ 56 + b.brValid.toNat * 2 ^ 72 + b.brPol.toNat * 2 ^ 73 +
      b.brDisp.toNat * 2 ^ 74 + b.stValid.toNat * 2 ^ 90 + b.stDest.toNat * 2 ^ 91 := by
  have h0 := b.tag.isLt
  have h1 := b.nops.isLt
  have h2 := b.op0.isLt
  have h3 := b.op1.isLt
  have h4 := b.op2.isLt
  have h5 := b.op3.isLt
  have h6 := Bool.toNat_lt b.brValid
  have h7 := Bool.toNat_lt b.brPol
  have h8 := b.brDisp.isLt
  have h9 := Bool.toNat_lt b.stValid
  have h10 := b.stDest.isLt
  simp only [pack, BitVec.toNat_ofNat]
  omega

/-- A field of `n` bits from bit `lo` of a word, as a number. -/
theorem toNat_extract (w : BundleWord) (lo n : Nat) :
    (w.extractLsb' lo n).toNat = w.toNat / 2 ^ lo % 2 ^ n := by
  simp [BitVec.extractLsb'_toNat, Nat.shiftRight_eq_div_pow]

/-- A bit of a word, as a number. -/
theorem toNat_getLsbD (w : BundleWord) (k : Nat) : (w.getLsbD k).toNat = w.toNat / 2 ^ k % 2 := by
  have h : w.toNat / 2 ^ k % 2 = 0 ∨ w.toNat / 2 ^ k % 2 = 1 := by omega
  rw [BitVec.getLsbD, Nat.testBit_eq_decide_div_mod_eq]
  rcases h with h | h <;> simp [h]

theorem bool_eq_of_toNat {x y : Bool} (h : x.toNat = y.toNat) : x = y := by
  cases x <;> cases y <;> simp_all

/-- Two bundles with the same fields as numbers are equal. -/
theorem bundle_ext_toNat {b c : Bundle} (h0 : b.tag.toNat = c.tag.toNat) (h1 : b.nops.toNat = c.nops.toNat)
    (h2 : b.op0.toNat = c.op0.toNat) (h3 : b.op1.toNat = c.op1.toNat) (h4 : b.op2.toNat = c.op2.toNat)
    (h5 : b.op3.toNat = c.op3.toNat) (h6 : b.brValid.toNat = c.brValid.toNat) (h7 : b.brPol.toNat = c.brPol.toNat)
    (h8 : b.brDisp.toNat = c.brDisp.toNat) (h9 : b.stValid.toNat = c.stValid.toNat)
    (h10 : b.stDest.toNat = c.stDest.toNat) : b = c := by
  cases b
  cases c
  simp only [Bundle.mk.injEq]
  exact ⟨BitVec.eq_of_toNat_eq h0, BitVec.eq_of_toNat_eq h1, BitVec.eq_of_toNat_eq h2, BitVec.eq_of_toNat_eq h3,
    BitVec.eq_of_toNat_eq h4, BitVec.eq_of_toNat_eq h5, bool_eq_of_toNat h6, bool_eq_of_toNat h7,
    BitVec.eq_of_toNat_eq h8, bool_eq_of_toNat h9, BitVec.eq_of_toNat_eq h10⟩

/-- Reading a packed bundle gives its fields back (R35). -/
theorem unpack_pack (b : Bundle) : unpack (pack b) = b := by
  have h0 := b.tag.isLt
  have h1 := b.nops.isLt
  have h2 := b.op0.isLt
  have h3 := b.op1.isLt
  have h4 := b.op2.isLt
  have h5 := b.op3.isLt
  have h6 := Bool.toNat_lt b.brValid
  have h7 := Bool.toNat_lt b.brPol
  have h8 := b.brDisp.isLt
  have h9 := Bool.toNat_lt b.stValid
  have h10 := b.stDest.isLt
  apply bundle_ext_toNat <;>
    simp only [unpack, toNat_extract, toNat_getLsbD, pack_toNat] <;> omega

/-- Packing the fields of a word gives the word back (R35). -/
theorem pack_unpack (w : BundleWord) : pack (unpack w) = w := by
  have h := w.isLt
  apply BitVec.eq_of_toNat_eq
  rw [pack_toNat]
  simp only [unpack, toNat_extract, toNat_getLsbD]
  omega

/-- The decoder on a packed bundle. -/
theorem decode_pack (b : Bundle) (text : Text) : decode (pack b) text = decodeBundle b text := by
  rw [decode, unpack_pack]

theorem decodeBundle_ok_iff (b : Bundle) (text : Text) (i : Instr) :
    decodeBundle b text = .ok i ↔ b.check = none ∧ b.toInstr text = i := by
  unfold decodeBundle
  split <;> simp_all

theorem decodeBundle_error_iff (b : Bundle) (text : Text) (e : Malformed) :
    decodeBundle b text = .error e ↔ b.check = some e := by
  unfold decodeBundle
  split <;> simp_all

/-- The decoder answers exactly on the bundles that pass the check (R42, R45). -/
theorem decode_ok_iff (w : BundleWord) (text : Text) (i : Instr) :
    decode w text = .ok i ↔ (unpack w).check = none ∧ (unpack w).toInstr text = i :=
  decodeBundle_ok_iff _ _ _

/-- The decoder refuses with the check's own reason (R42). -/
theorem decode_error_iff (w : BundleWord) (text : Text) (e : Malformed) :
    decode w text = .error e ↔ (unpack w).check = some e :=
  decodeBundle_error_iff _ _ _

/-- A bundle passes the check iff it has what its opcode's line of R42 asks. -/
theorem check_eq_none_iff (b : Bundle) :
    b.check = none ↔ (∀ ns, (shapeOf b.tag).nops = some ns → b.nops.toNat ∈ ns) ∧
      (∀ x, (shapeOf b.tag).branch = some x → b.brValid = x) ∧
      (∀ x, (shapeOf b.tag).dest = some x → b.stValid = x) := by
  unfold Bundle.check
  generalize shapeOf b.tag = sh
  obtain ⟨n, br, st⟩ := sh
  cases n <;> rcases br with _ | _ | _ <;> rcases st with _ | _ | _ <;>
    cases b.brValid <;> cases b.stValid <;> simp <;> split <;> simp

end Sys2Proof
end

