-- ==== Sys2Proof/Laws/Memory.lean ====
section
/-!
SUPPORT. The laws of sparse maps and of the memory image: read after write, and that every memory operation keeps the
canonical form.
-/

namespace Sys2Proof.Machine

variable {β : Type}

theorem tableGet_put (l : List (Nat × β)) (k : Nat) (v : β) (j : Nat) :
    tableGet (tablePut l k v) j = if k = j then some v else tableGet l j := by
  induction l with
  | nil => simp [tablePut, tableGet]
  | cons c cs ih =>
    by_cases h1 : k < c.1
    · simp [tablePut, h1, tableGet]
    · by_cases h2 : k = c.1
      · simp [tablePut, tableGet, ← h2]
        by_cases h3 : k = j <;> simp [h3]
      · simp only [tablePut, h1, h2, if_false, tableGet, ih]
        by_cases h3 : c.1 = j
        · have : k ≠ j := by omega
          simp [h3, this]
        · simp [h3]

theorem tableGet_drop (l : List (Nat × β)) (k j : Nat) :
    tableGet (tableDrop l k) j = if k = j then none else tableGet l j := by
  induction l with
  | nil => simp [tableDrop, tableGet]
  | cons c cs ih =>
    by_cases h1 : c.1 = k
    · simp only [tableDrop, h1, if_true, ih, tableGet]
      by_cases h2 : k = j <;> simp [h2]
    · simp only [tableDrop, h1, if_false, tableGet, ih]
      by_cases h2 : c.1 = j
      · have : k ≠ j := by omega
        simp [h2, this]
      · simp [h2]

theorem mem_tablePut {l : List (Nat × β)} {k : Nat} {v : β} {c : Nat × β}
    (h : c ∈ tablePut l k v) : c = (k, v) ∨ c ∈ l := by
  induction l with
  | nil => simpa [tablePut] using h
  | cons d ds ih =>
    unfold tablePut at h
    split at h
    · simpa using h
    · split at h
      · rcases List.mem_cons.mp h with h | h
        · exact .inl h
        · exact .inr (List.mem_cons_of_mem _ h)
      · rcases List.mem_cons.mp h with h | h
        · exact .inr (by simp [h])
        · exact (ih h).imp id (List.mem_cons_of_mem _)

theorem mem_tableDrop {l : List (Nat × β)} {k : Nat} {c : Nat × β} (h : c ∈ tableDrop l k) : c ∈ l := by
  induction l with
  | nil => simp [tableDrop] at h
  | cons d ds ih =>
    unfold tableDrop at h
    split at h
    · exact List.mem_cons_of_mem _ (ih h)
    · rcases List.mem_cons.mp h with h | h
      · simp [h]
      · exact List.mem_cons_of_mem _ (ih h)

theorem tablePut_rising {l : List (Nat × β)} (k : Nat) (v : β) (h : TableRising l) :
    TableRising (tablePut l k v) := by
  induction l with
  | nil => simp [tablePut]
  | cons d ds ih =>
    obtain ⟨hd, hds⟩ := List.pairwise_cons.mp h
    unfold tablePut
    split
    · rename_i hk
      refine List.pairwise_cons.mpr ⟨?_, h⟩
      intro c hc
      rcases List.mem_cons.mp hc with rfl | hc
      · exact hk
      · exact lt_trans hk (hd c hc)
    · split
      · rename_i hk
        exact List.pairwise_cons.mpr ⟨fun c hc => by simpa [hk] using hd c hc, hds⟩
      · refine List.pairwise_cons.mpr ⟨?_, ih hds⟩
        intro c hc
        rcases mem_tablePut hc with rfl | hc
        · show d.1 < k
          omega
        · exact hd c hc

theorem tableDrop_rising {l : List (Nat × β)} (k : Nat) (h : TableRising l) :
    TableRising (tableDrop l k) := by
  induction l with
  | nil => simp [tableDrop]
  | cons d ds ih =>
    obtain ⟨hd, hds⟩ := List.pairwise_cons.mp h
    unfold tableDrop
    split
    · exact ih hds
    · exact List.pairwise_cons.mpr ⟨fun c hc => hd c (mem_tableDrop hc), ih hds⟩

/-! ## The image -/

/-- Read after write, at the same address and at any other. -/
theorem Memory.read_write (m : Memory) (a : Nat) (b : Byte) (x : Nat) :
    Memory.read (Memory.write m a b) x = if a = x then b else Memory.read m x := by
  unfold Memory.read Memory.write
  split
  · rename_i hb
    rw [tableGet_drop]
    split <;> simp [hb]
  · rw [tableGet_put]
    split <;> simp

@[simp] theorem Memory.read_write_same (m : Memory) (a : Nat) (b : Byte) :
    Memory.read (Memory.write m a b) a = b := by simp [Memory.read_write]

theorem Memory.read_write_other (m : Memory) {a x : Nat} (b : Byte) (h : x ≠ a) :
    Memory.read (Memory.write m a b) x = Memory.read m x := by simp [Memory.read_write, h.symm]

/-- A write inside the image keeps the canonical form. -/
theorem Memory.write_wf {size a : Nat} {m : Memory} (b : Byte) (h : Memory.wf size m) (ha : a < size) :
    Memory.wf size (Memory.write m a b) := by
  obtain ⟨h1, h2, h3⟩ := h
  unfold Memory.write
  split
  · exact ⟨tableDrop_rising a h1, fun c hc => h2 c (mem_tableDrop hc), fun c hc => h3 c (mem_tableDrop hc)⟩
  · rename_i hb
    refine ⟨tablePut_rising a b h1, fun c hc => ?_, fun c hc => ?_⟩
    · rcases mem_tablePut hc with rfl | hc
      · exact hb
      · exact h2 c hc
    · rcases mem_tablePut hc with rfl | hc
      · exact ha
      · exact h3 c hc

theorem Memory.ofImageFrom_mem {i : Nat} {bytes : List Byte} {c : Host.Cell}
    (h : c ∈ Memory.ofImageFrom i bytes) :
    i ≤ c.1 ∧ c.1 < i + bytes.length ∧ c.2 ≠ Memory.unlisted := by
  induction bytes generalizing i with
  | nil => simp [Memory.ofImageFrom] at h
  | cons b bs ih =>
    have later : c ∈ Memory.ofImageFrom (i + 1) bs →
        i ≤ c.1 ∧ c.1 < i + (b :: bs).length ∧ c.2 ≠ Memory.unlisted := by
      intro hc
      obtain ⟨h1, h2, h3⟩ := ih hc
      simp only [List.length_cons]
      exact ⟨by omega, by omega, h3⟩
    unfold Memory.ofImageFrom at h
    split at h
    · exact later h
    · rename_i hb
      rcases List.mem_cons.mp h with rfl | h
      · exact ⟨le_refl _, by simp, hb⟩
      · exact later h

/-- A loaded image is in canonical form. -/
theorem Memory.ofImageFrom_rising (i : Nat) (bytes : List Byte) : TableRising (Memory.ofImageFrom i bytes) := by
  induction bytes generalizing i with
  | nil => simp [Memory.ofImageFrom]
  | cons b bs ih =>
    unfold Memory.ofImageFrom
    split
    · exact ih _
    · refine List.pairwise_cons.mpr ⟨fun c hc => ?_, ih _⟩
      have := (Memory.ofImageFrom_mem hc).1
      show i < c.1
      omega

/-- Loading an image gives a memory in canonical form. -/
theorem Memory.ofImage_wf (bytes : List Byte) : Memory.wf bytes.length (Memory.ofImage bytes) :=
  ⟨Memory.ofImageFrom_rising 0 bytes, fun _ hc => (Memory.ofImageFrom_mem hc).2.2,
    fun c hc => by have := (Memory.ofImageFrom_mem hc).2.1; omega⟩

theorem tableGet_ofImageFrom_below {i x : Nat} (bytes : List Byte) (h : x < i) :
    tableGet (Memory.ofImageFrom i bytes) x = none := by
  induction bytes generalizing i with
  | nil => rfl
  | cons b bs ih =>
    unfold Memory.ofImageFrom
    split
    · exact ih (by omega)
    · have : i ≠ x := by omega
      simp [tableGet, this, ih (i := i + 1) (by omega)]

/-- A loaded image reads back byte for byte, and as unlisted past its end. -/
theorem Memory.read_ofImageFrom (i : Nat) (bytes : List Byte) (k : Nat) :
    Memory.read (Memory.ofImageFrom i bytes) (i + k) = bytes.getD k Memory.unlisted := by
  induction bytes generalizing i k with
  | nil => simp [Memory.ofImageFrom, Memory.read, tableGet]
  | cons b bs ih =>
    cases k with
    | zero =>
      unfold Memory.ofImageFrom
      split
      · rename_i hb
        simp [Memory.read, tableGet_ofImageFrom_below, hb]
      · simp [Memory.read, tableGet]
    | succ k =>
      have hk := ih (i + 1) k
      have e : i + 1 + k = i + (k + 1) := by omega
      rw [e] at hk
      unfold Memory.ofImageFrom
      split
      · simpa using hk
      · simpa [Memory.read, tableGet] using hk

/-- A loaded image reads back byte for byte (R18). -/
theorem Memory.read_ofImage (bytes : List Byte) (k : Nat) :
    Memory.read (Memory.ofImage bytes) k = bytes.getD k Memory.unlisted := by
  simpa [Memory.ofImage] using Memory.read_ofImageFrom 0 bytes k

/-- A loaded image is the image (R18). -/
theorem Memory.image_ofImage (bytes : List Byte) : Memory.image bytes.length (Memory.ofImage bytes) = bytes := by
  apply List.ext_getElem
  · simp [Memory.image]
  · intro k h1 h2
    simp [Memory.image, Memory.read_ofImage, h2]

/-- An image of zeros lists nothing. -/
theorem Memory.ofImageFrom_zeros (i n : Nat) : Memory.ofImageFrom i (List.replicate n Memory.unlisted) = [] := by
  induction n generalizing i with
  | zero => rfl
  | succ n ih => simpa [List.replicate_succ, Memory.ofImageFrom] using ih (i + 1)

end Sys2Proof.Machine
end

