-- ==== Sys2Proof/Laws/Numeric.lean ====
section
/-!
SUPPORT. The conversions against Lean's own two's complement, and the bounds of the addresses.
-/

namespace Sys2Proof.Machine

/-- `signed` is the two's-complement reading (R51). -/
theorem signed_eq_toInt (v : Word16) : signed v = v.toInt := by
  have hv := v.isLt
  unfold signed
  rw [BitVec.toInt_eq_toNat_cond]
  have hb : v.getLsbD 15 = decide (32768 ≤ v.toNat) := by
    have := BitVec.msb_eq_decide v
    rw [BitVec.msb_eq_getLsbD_last] at this
    simpa using this
  rw [hb]
  by_cases h : 32768 ≤ v.toNat
  · rw [if_pos (by simpa using h), if_neg (by omega)]
    norm_num
  · rw [if_neg (by simpa using h), if_pos (by omega)]

/-- `trunc16` keeps the low 16 bits (R52). -/
theorem trunc16_eq_ofInt (x : Int) : trunc16 x = BitVec.ofInt 16 x := by
  apply BitVec.eq_of_toNat_eq
  simp only [trunc16, BitVec.toNat_ofNat, BitVec.toNat_ofInt]
  omega

/-- The range of `signed` (R51). -/
theorem signed_bounds (v : Word16) : -32768 ≤ signed v ∧ signed v ≤ 32767 := by
  rw [signed_eq_toInt]
  have h1 := BitVec.le_toInt v
  have h2 := BitVec.toInt_lt (x := v)
  norm_num at h1 h2
  omega

theorem signed_eq_zero_iff (v : Word16) : signed v = 0 ↔ v = 0 := by
  rw [signed_eq_toInt]
  constructor
  · intro h
    apply BitVec.eq_of_toInt_eq
    simpa using h
  · rintro rfl
    rfl

/-- A branch target lies near `pc` (R70). -/
theorem branchTarget_bounds (pc : Int) (d : Word16) :
    pc - 32770 ≤ branchTarget pc d ∧ branchTarget pc d ≤ pc + 32765 := by
  have := signed_bounds d
  unfold branchTarget
  omega

/-- The condition of `JE` is membership of the value tested (R73). -/
theorem anyEqual_iff (a : Word16) (cs : List Word16) : anyEqual a cs = true ↔ a ∈ cs := by
  simp only [anyEqual, eq16, List.any_eq_true, decide_eq_true_eq]
  exact ⟨fun ⟨c, hc, he⟩ => he ▸ hc, fun h => ⟨a, h, rfl⟩⟩

theorem quotient_eq_none_iff (a b : Int) : quotient a b = none ↔ b = 0 := by
  unfold quotient; split <;> simp_all

theorem remainder_eq_none_iff (a b : Int) : remainder a b = none ↔ b = 0 := by
  unfold remainder; split <;> simp_all

/-- The SDE flags a zero divisor and nothing else (R57). -/
theorem sdeUnit_eq_none_iff (a b : Word16) : sdeUnit a b = none ↔ b = 0 := by
  simp [sdeUnit, quotient_eq_none_iff, signed_eq_zero_iff]

/-- The MT flags a zero divisor and nothing else (R60). -/
theorem mtUnit_eq_none_iff (a b : Word16) : mtUnit a b = none ↔ b = 0 := by
  simp [mtUnit, remainder_eq_none_iff, signed_eq_zero_iff]

/-- Truncation toward zero, as Lean's own `tdiv` (R56). -/
theorem quotient_eq_tdiv {a b : Int} (h : b ≠ 0) : quotient a b = some (a.tdiv b) := by
  simp only [quotient, h, if_false, Option.some.injEq]
  obtain ⟨m, rfl | rfl⟩ := a.eq_nat_or_neg <;> obtain ⟨n, rfl | rfl⟩ := b.eq_nat_or_neg <;>
    rcases Nat.eq_zero_or_pos m with rfl | hm <;> rcases Nat.eq_zero_or_pos n with rfl | hn <;>
    simp_all [Int.sign_eq_one_of_pos, Int.natAbs_neg, Int.neg_tdiv, Int.tdiv_neg]

/-- The remainder with the dividend's sign, as Lean's own `tmod` (R59). -/
theorem remainder_eq_tmod {a b : Int} (h : b ≠ 0) : remainder a b = some (a.tmod b) := by
  simp only [remainder, h, if_false, Option.some.injEq]
  obtain ⟨m, rfl | rfl⟩ := a.eq_nat_or_neg <;> obtain ⟨n, rfl | rfl⟩ := b.eq_nat_or_neg <;>
    rcases Nat.eq_zero_or_pos m with rfl | hm <;>
    simp_all [Int.sign_eq_one_of_pos, Int.natAbs_neg, Int.neg_tmod, Int.tmod_neg, Int.tmod_eq_emod_of_nonneg]

end Sys2Proof.Machine
end

