-- ==== Sys2Proof/Laws/State.lean ====
section
/-!
SUPPORT. One lemma per field per update of the state: what each named operation leaves in each field.
-/

namespace Sys2Proof.Machine

@[simp] theorem storeVar_memSize (d : VarRef) (v : Word16) (s : State) : (storeVar d v s).memSize = s.memSize := rfl
@[simp] theorem storeVar_mem (d : VarRef) (v : Word16) (s : State) : (storeVar d v s).mem = s.mem := rfl
@[simp] theorem storeVar_pc (d : VarRef) (v : Word16) (s : State) : (storeVar d v s).pc = s.pc := rfl
@[simp] theorem storeVar_vars (d : VarRef) (v : Word16) (s : State) : (storeVar d v s).vars = tablePut s.vars d.toNat v := rfl
@[simp] theorem storeVar_out (d : VarRef) (v : Word16) (s : State) : (storeVar d v s).out = s.out := rfl
@[simp] theorem storeVar_status (d : VarRef) (v : Word16) (s : State) : (storeVar d v s).status = s.status := rfl
@[simp] theorem storeVar_unimplemented (d : VarRef) (v : Word16) (s : State) : (storeVar d v s).unimplemented = s.unimplemented := rfl
@[simp] theorem storeVar_fault (d : VarRef) (v : Word16) (s : State) : (storeVar d v s).fault = s.fault := rfl
@[simp] theorem storeVar_inbox (d : VarRef) (v : Word16) (s : State) : (storeVar d v s).inbox = s.inbox := rfl
@[simp] theorem storeVar_readerRows (d : VarRef) (v : Word16) (s : State) : (storeVar d v s).readerRows = s.readerRows := rfl

@[simp] theorem setPc_memSize (p : Int) (s : State) : (setPc p s).memSize = s.memSize := rfl
@[simp] theorem setPc_mem (p : Int) (s : State) : (setPc p s).mem = s.mem := rfl
@[simp] theorem setPc_pc (p : Int) (s : State) : (setPc p s).pc = p := rfl
@[simp] theorem setPc_vars (p : Int) (s : State) : (setPc p s).vars = s.vars := rfl
@[simp] theorem setPc_out (p : Int) (s : State) : (setPc p s).out = s.out := rfl
@[simp] theorem setPc_status (p : Int) (s : State) : (setPc p s).status = s.status := rfl
@[simp] theorem setPc_unimplemented (p : Int) (s : State) : (setPc p s).unimplemented = s.unimplemented := rfl
@[simp] theorem setPc_fault (p : Int) (s : State) : (setPc p s).fault = s.fault := rfl
@[simp] theorem setPc_inbox (p : Int) (s : State) : (setPc p s).inbox = s.inbox := rfl
@[simp] theorem setPc_readerRows (p : Int) (s : State) : (setPc p s).readerRows = s.readerRows := rfl

@[simp] theorem emit_memSize (t : Text) (s : State) : (emit t s).memSize = s.memSize := rfl
@[simp] theorem emit_mem (t : Text) (s : State) : (emit t s).mem = s.mem := rfl
@[simp] theorem emit_pc (t : Text) (s : State) : (emit t s).pc = s.pc := rfl
@[simp] theorem emit_vars (t : Text) (s : State) : (emit t s).vars = s.vars := rfl
@[simp] theorem emit_out (t : Text) (s : State) : (emit t s).out = s.out ++ [t] := rfl
@[simp] theorem emit_status (t : Text) (s : State) : (emit t s).status = s.status := rfl
@[simp] theorem emit_unimplemented (t : Text) (s : State) : (emit t s).unimplemented = s.unimplemented := rfl
@[simp] theorem emit_fault (t : Text) (s : State) : (emit t s).fault = s.fault := rfl
@[simp] theorem emit_inbox (t : Text) (s : State) : (emit t s).inbox = s.inbox := rfl
@[simp] theorem emit_readerRows (t : Text) (s : State) : (emit t s).readerRows = s.readerRows := rfl

@[simp] theorem present_memSize (t : Transaction) (s : State) : (present t s).memSize = s.memSize := rfl
@[simp] theorem present_mem (t : Transaction) (s : State) : (present t s).mem = s.mem := rfl
@[simp] theorem present_pc (t : Transaction) (s : State) : (present t s).pc = s.pc := rfl
@[simp] theorem present_vars (t : Transaction) (s : State) : (present t s).vars = s.vars := rfl
@[simp] theorem present_out (t : Transaction) (s : State) : (present t s).out = s.out := rfl
@[simp] theorem present_status (t : Transaction) (s : State) : (present t s).status = s.status := rfl
@[simp] theorem present_unimplemented (t : Transaction) (s : State) : (present t s).unimplemented = s.unimplemented := rfl
@[simp] theorem present_fault (t : Transaction) (s : State) : (present t s).fault = s.fault := rfl
@[simp] theorem present_inbox (t : Transaction) (s : State) : (present t s).inbox = s.inbox ++ [t] := rfl
@[simp] theorem present_readerRows (t : Transaction) (s : State) : (present t s).readerRows = s.readerRows := rfl

@[simp] theorem branchOn_memSize (c : Bool) (br : Branch) (s : State) : (branchOn c br s).memSize = s.memSize := by
  unfold branchOn; split <;> rfl
@[simp] theorem branchOn_mem (c : Bool) (br : Branch) (s : State) : (branchOn c br s).mem = s.mem := by
  unfold branchOn; split <;> rfl
@[simp] theorem branchOn_pc (c : Bool) (br : Branch) (s : State) :
    (branchOn c br s).pc = if branchTaken c br then branchTarget s.pc br.disp else s.pc := by
  unfold branchOn; split <;> rfl
@[simp] theorem branchOn_vars (c : Bool) (br : Branch) (s : State) : (branchOn c br s).vars = s.vars := by
  unfold branchOn; split <;> rfl
@[simp] theorem branchOn_out (c : Bool) (br : Branch) (s : State) : (branchOn c br s).out = s.out := by
  unfold branchOn; split <;> rfl
@[simp] theorem branchOn_status (c : Bool) (br : Branch) (s : State) : (branchOn c br s).status = s.status := by
  unfold branchOn; split <;> rfl
@[simp] theorem branchOn_unimplemented (c : Bool) (br : Branch) (s : State) : (branchOn c br s).unimplemented = s.unimplemented := by
  unfold branchOn; split <;> rfl
@[simp] theorem branchOn_fault (c : Bool) (br : Branch) (s : State) : (branchOn c br s).fault = s.fault := by
  unfold branchOn; split <;> rfl
@[simp] theorem branchOn_inbox (c : Bool) (br : Branch) (s : State) : (branchOn c br s).inbox = s.inbox := by
  unfold branchOn; split <;> rfl
@[simp] theorem branchOn_readerRows (c : Bool) (br : Branch) (s : State) : (branchOn c br s).readerRows = s.readerRows := by
  unfold branchOn; split <;> rfl

@[simp] theorem recordFault_memSize (f : Fault) (s : State) : (recordFault f s).memSize = s.memSize := rfl
@[simp] theorem recordFault_mem (f : Fault) (s : State) : (recordFault f s).mem = s.mem := rfl
@[simp] theorem recordFault_pc (f : Fault) (s : State) : (recordFault f s).pc = s.pc := rfl
@[simp] theorem recordFault_vars (f : Fault) (s : State) : (recordFault f s).vars = s.vars := rfl
@[simp] theorem recordFault_out (f : Fault) (s : State) : (recordFault f s).out = s.out := rfl
@[simp] theorem recordFault_status (f : Fault) (s : State) : (recordFault f s).status = s.status := rfl
@[simp] theorem recordFault_unimplemented (f : Fault) (s : State) : (recordFault f s).unimplemented = s.unimplemented := rfl
@[simp] theorem recordFault_fault (f : Fault) (s : State) : (recordFault f s).fault = some f := rfl
@[simp] theorem recordFault_inbox (f : Fault) (s : State) : (recordFault f s).inbox = s.inbox := rfl
@[simp] theorem recordFault_readerRows (f : Fault) (s : State) : (recordFault f s).readerRows = s.readerRows := rfl

@[simp] theorem faulted_memSize (f : Fault) (s : State) : (faulted f s).memSize = s.memSize := rfl
@[simp] theorem faulted_mem (f : Fault) (s : State) : (faulted f s).mem = s.mem := rfl
@[simp] theorem faulted_pc (f : Fault) (s : State) : (faulted f s).pc = s.pc := rfl
@[simp] theorem faulted_vars (f : Fault) (s : State) : (faulted f s).vars = s.vars := rfl
@[simp] theorem faulted_out (f : Fault) (s : State) : (faulted f s).out = s.out := rfl
@[simp] theorem faulted_status (f : Fault) (s : State) : (faulted f s).status = faultStatus f := rfl
@[simp] theorem faulted_unimplemented (f : Fault) (s : State) : (faulted f s).unimplemented = s.unimplemented := rfl
@[simp] theorem faulted_fault (f : Fault) (s : State) : (faulted f s).fault = some f := rfl
@[simp] theorem faulted_inbox (f : Fault) (s : State) : (faulted f s).inbox = s.inbox := rfl
@[simp] theorem faulted_readerRows (f : Fault) (s : State) : (faulted f s).readerRows = s.readerRows := rfl

/-- Recording the fault that is recorded changes nothing. -/
theorem recordFault_same {f : Fault} {s : State} (h : s.fault = some f) : recordFault f s = s := by
  simp [recordFault, ← h]

/-- What completing a step answers: the state with status `OK` (R102). -/
@[simp] theorem complete_next_iff (s t : State) : complete s = .next t ↔ t = { s with status := .ok } := by
  simp [complete, eq_comm]

/-- What an unimplemented opcode answers: the status and the run mark (R106). -/
@[simp] theorem completeUnimplemented_next_iff (s t : State) :
    completeUnimplemented s = .next t ↔ t = { s with status := .unimplemented, unimplemented := true } := by
  simp [completeUnimplemented, eq_comm]

@[simp] theorem complete_ne_fault (s : State) (f : Fault) : complete s ≠ .fault f := by simp [complete]

@[simp] theorem complete_ne_refused (s : State) (r : Refusal) : complete s ≠ .refused r := by simp [complete]

@[simp] theorem raise_ne_next (f : Fault) (t : State) : raise f ≠ .next t := by simp [raise]

@[simp] theorem raise_fault_iff (f g : Fault) : raise f = .fault g ↔ f = g := by simp [raise]

@[simp] theorem raise_ne_refused (f : Fault) (r : Refusal) : raise f ≠ .refused r := by simp [raise]

end Sys2Proof.Machine
end

