-- ==== Sys2Proof/Laws/Ops.lean ====
section
/-!
SUPPORT. One spec lemma per shared operation: everything it can do, once.
-/

namespace Sys2Proof.Machine

/-- When an access is inside the image (R21). -/
theorem inBounds_iff (size : Nat) (a : Int) (n : Nat) :
    inBounds size a n = true ↔ 0 ≤ a ∧ a + (n : Int) ≤ (size : Int) := by
  simp only [inBounds, decide_eq_true_eq]
  omega

theorem inBounds_false_iff (size : Nat) (a : Int) (n : Nat) :
    inBounds size a n = false ↔ a < 0 ∨ (size : Int) < a + (n : Int) := by
  rw [← Bool.not_eq_true, inBounds_iff]
  omega

/-- What a byte write does (R22). -/
theorem writeByte_cases (a : Int) (v : Word16) (s : State) :
    (inBounds s.memSize a 1 = true ∧
      writeByte a v s = .ok { s with mem := Memory.write s.mem a.toNat (v.extractLsb' 0 8) }) ∨
    (inBounds s.memSize a 1 = false ∧ writeByte a v s = .error (.outOfBounds a)) := by
  unfold writeByte
  cases h : inBounds s.memSize a 1 <;> simp

/-- What a word write does (R23). -/
theorem writeWord_cases (a : Int) (v : Word16) (s : State) :
    (inBounds s.memSize a 2 = true ∧
      writeWord a v s = .ok { s with
        mem := Memory.write (Memory.write s.mem a.toNat (v.extractLsb' 8 8)) (a.toNat + 1) (v.extractLsb' 0 8) }) ∨
    (inBounds s.memSize a 2 = false ∧ writeWord a v s = .error (.outOfBounds a)) := by
  unfold writeWord
  cases h : inBounds s.memSize a 2 <;> simp

/-- A variable reads back what was stored in it, and every other variable what it held (R15). -/
theorem readVar_storeVar (d e : VarRef) (v : Word16) (s : State) :
    readVar e (storeVar d v s) = if d = e then v else readVar e s := by
  simp only [readVar, storeVar_vars, tableGet_put]
  by_cases h : d = e
  · simp [h]
  · have : d.toNat ≠ e.toNat := fun he => h (BitVec.eq_of_toNat_eq he)
    simp [h, this]

/-- No field but `vars` matters to a read of a variable. -/
theorem readVar_congr {d : VarRef} {s t : State} (h : s.vars = t.vars) : readVar d s = readVar d t := by
  simp [readVar, h]

/-- The string reader fails outside the image (R25). -/
theorem readString_outside {a m : Int} {s : State} (h : inBounds s.memSize a 1 = false) :
    readString a m s = none := by
  simp [readString, h]

/-- The string reader depends on the image and its listed answers alone (R25). -/
theorem readString_congr {a m : Int} {s u : State} (h1 : s.memSize = u.memSize) (h2 : s.mem = u.mem)
    (h3 : s.readerRows = u.readerRows) : readString a m s = readString a m u := by
  simp [readString, h1, h2, h3]

/-- The codec's text depends on the image and the units alone (R80, R19). -/
theorem translateUnits_congr {units : List SymbolUnit} {s u : State} (h1 : s.memSize = u.memSize)
    (h2 : s.mem = u.mem) : translateUnits units s = translateUnits units u := by
  simp [translateUnits, headerVersion, h1, h2]

/-- What a settled write answers (R103). -/
theorem settle_next_iff (r : Except Fault State) (t : State) :
    settle r = .next t ↔ ∃ s, r = .ok s ∧ t = { s with status := .ok } := by
  cases r <;> simp [settle]

theorem settle_fault_iff (r : Except Fault State) (f : Fault) : settle r = .fault f ↔ r = .error f := by
  cases r <;> simp [settle]

/-- What a fetch can answer (R12, U6). -/
theorem fetch_next_iff (s : State) (t : Transaction) (u : State) :
    fetch s = .next (t, u) ↔ s.fault = none ∧ ∃ rest, s.inbox = t :: rest ∧
      inBounds s.memSize s.pc (max 1 t.length) = true ∧
      u = { s with pc := s.pc + (t.length : Int), inbox := rest } := by
  unfold fetch
  constructor
  · intro h
    split at h
    · cases h
    · rename_i hf
      split at h
      · cases h
      · rename_i t' rest hi
        split at h
        · rename_i hb
          cases h
          exact ⟨hf, rest, hi, hb, rfl⟩
        · cases h
  · rintro ⟨hf, rest, hi, hb, rfl⟩
    simp only [hf, hi, hb, if_true]

/-- Where a fetch answers a fault: the recorded one, or the one of an encoding outside the image (R104, U6). -/
theorem fetch_fault_iff (s : State) (f : Fault) :
    fetch s = .fault f ↔ s.fault = some f ∨
      (s.fault = none ∧ f = .fetchOutOfBounds s.pc ∧ ∃ t rest, s.inbox = t :: rest ∧
        inBounds s.memSize s.pc (max 1 t.length) = false) := by
  unfold fetch
  constructor
  · intro h
    split at h
    · rename_i g hg
      cases h
      exact .inl hg
    · rename_i hf
      split at h
      · cases h
      · rename_i t rest hi
        split at h
        · cases h
        · rename_i hb
          cases h
          exact .inr ⟨hf, rfl, t, rest, hi, by simpa using hb⟩
  · rintro (h | ⟨hf, rfl, t, rest, hi, hb⟩)
    · simp only [h]
    · simp [hf, hi, hb]

end Sys2Proof.Machine
end

