-- ==== Sys2Proof/Laws/Exec.lean ====
section
/-!
SUPPORT. What a step can do, said once: the inversion lemmas of `exec` and of `step`.
-/

namespace Sys2Proof.Machine

/-- Everything an instruction that ends in a next state can have done (R11, R33, R64): a branch moved `pc`, a result was
stored in one variable, one text was emitted, one byte or one word of the image was written, or nothing happened and the run
was marked. -/
theorem exec_next_cases {i : Instr} {s t : State} (h : exec i s = .next t) :
    (((∃ d, i = .jump d) ∨ (∃ a cs br, i = .je a cs br) ∨ (∃ a b br, i = .jg a b br) ∨ (∃ a b br, i = .jl a b br)) ∧
      ∃ p, s.pc - 32770 ≤ p ∧ p ≤ s.pc + 32765 ∧ t = { s with pc := p, status := .ok }) ∨
    (((∃ a b d, i = .add a b d) ∨ (∃ a b d, i = .sub a b d) ∨ (∃ a b d, i = .mul a b d) ∨ (∃ a b d, i = .div a b d) ∨
        (∃ a b d, i = .mod a b d) ∨ (∃ a d, i = .not a d) ∨ (∃ a b d, i = .or a b d) ∨ (∃ a b d, i = .and a b d) ∨
        (∃ d v, i = .store d v)) ∧
      ∃ d v, t = { storeVar d v s with status := .ok }) ∨
    (((∃ x, i = .print x) ∨ (∃ a, i = .printAddr a) ∨ (∃ u, i = .printChar u)) ∧
      ∃ x, t = { emit x s with status := .ok }) ∨
    ((∃ b o v, i = .storeb b o v) ∧
      ∃ a b, a < s.memSize ∧ t = { s with mem := Memory.write s.mem a b, status := .ok }) ∨
    ((∃ b o v, i = .storew b o v) ∧
      ∃ a b c, a + 1 < s.memSize ∧
        t = { s with mem := Memory.write (Memory.write s.mem a b) (a + 1) c, status := .ok }) ∨
    (((∃ x, i = .jin x) ∨ (∃ x, i = .reserved19 x) ∨ (∃ l x, i = .reserved20to23 l x) ∨
        (∃ l x, i = .reserved24to31 l x)) ∧
      t = { s with status := .unimplemented, unimplemented := true }) := by
  have branch : ∀ (c : Bool) (br : Branch), complete (branchOn c br s) = .next t →
      ∃ p, s.pc - 32770 ≤ p ∧ p ≤ s.pc + 32765 ∧ t = { s with pc := p, status := .ok } := by
    intro c br hb
    rw [complete_next_iff] at hb
    have := branchTarget_bounds s.pc br.disp
    unfold branchOn at hb
    split at hb
    · exact ⟨branchTarget s.pc br.disp, this.1, this.2, hb⟩
    · exact ⟨s.pc, by omega, by omega, hb⟩
  have unit : ∀ (r : Option Word16) (d : VarRef), storeUnit r d s = .next t →
      ∃ d v, t = { storeVar d v s with status := .ok } := by
    intro r d hr
    cases r with
    | none => simp [storeUnit] at hr
    | some v => exact ⟨d, v, by simpa [storeUnit] using hr⟩
  cases i with
  | jump d =>
    refine .inl ⟨.inl ⟨d, rfl⟩, branchTarget s.pc d, ?_, ?_, ?_⟩
    · exact (branchTarget_bounds s.pc d).1
    · exact (branchTarget_bounds s.pc d).2
    · simpa [exec, execJump, setPc] using h
  | je a cs br => exact .inl ⟨.inr (.inl ⟨a, cs, br, rfl⟩), branch _ _ h⟩
  | jg a b br => exact .inl ⟨.inr (.inr (.inl ⟨a, b, br, rfl⟩)), branch _ _ h⟩
  | jl a b br => exact .inl ⟨.inr (.inr (.inr ⟨a, b, br, rfl⟩)), branch _ _ h⟩
  | jin x => exact .inr (.inr (.inr (.inr (.inr ⟨.inl ⟨x, rfl⟩, by simpa [exec, execJin] using h⟩))))
  | print x => exact .inr (.inr (.inl ⟨.inl ⟨x, rfl⟩, x, by simpa [exec, execPrint] using h⟩))
  | printAddr a =>
    refine .inr (.inr (.inl ⟨.inr (.inl ⟨a, rfl⟩), ?_⟩))
    simp only [exec, execPrintAddr] at h
    split at h
    · simp at h
    · exact ⟨_, by simpa using h⟩
  | printChar u =>
    exact .inr (.inr (.inl ⟨.inr (.inr ⟨u, rfl⟩), _, by simpa [exec, execPrintChar] using h⟩))
  | add a b d => exact .inr (.inl ⟨by simp, d, _, by simpa [exec, execAdd] using h⟩)
  | sub a b d => exact .inr (.inl ⟨by simp, d, _, by simpa [exec, execSub] using h⟩)
  | mul a b d => exact .inr (.inl ⟨by simp, d, _, by simpa [exec, execMul] using h⟩)
  | div a b d => exact .inr (.inl ⟨by simp, unit _ _ h⟩)
  | mod a b d => exact .inr (.inl ⟨by simp, unit _ _ h⟩)
  | not a d => exact .inr (.inl ⟨by simp, d, _, by simpa [exec, execNot] using h⟩)
  | or a b d => exact .inr (.inl ⟨by simp, d, _, by simpa [exec, execOr] using h⟩)
  | and a b d => exact .inr (.inl ⟨by simp, d, _, by simpa [exec, execAnd] using h⟩)
  | store d v => exact .inr (.inl ⟨by simp, d, _, by simpa [exec, execStore] using h⟩)
  | storeb b o v =>
    refine .inr (.inr (.inr (.inl ⟨⟨b, o, v, rfl⟩, (byteAddress b o).toNat, v.extractLsb' 0 8, ?_⟩)))
    obtain ⟨s', hs, rfl⟩ := (settle_next_iff _ _).mp h
    rcases writeByte_cases (byteAddress b o) v s with ⟨hb, hw⟩ | ⟨-, hw⟩
    · rw [inBounds_iff] at hb
      obtain rfl : _ = s' := Except.ok.inj (hw.symm.trans hs)
      exact ⟨by omega, rfl⟩
    · rw [hw] at hs; simp at hs
  | storew b o v =>
    refine .inr (.inr (.inr (.inr (.inl
      ⟨⟨b, o, v, rfl⟩, (wordAddress b o).toNat, v.extractLsb' 8 8, v.extractLsb' 0 8, ?_⟩))))
    obtain ⟨s', hs, rfl⟩ := (settle_next_iff _ _).mp h
    rcases writeWord_cases (wordAddress b o) v s with ⟨hb, hw⟩ | ⟨-, hw⟩
    · rw [inBounds_iff] at hb
      obtain rfl : _ = s' := Except.ok.inj (hw.symm.trans hs)
      exact ⟨by omega, rfl⟩
    · rw [hw] at hs; simp at hs
  | reserved19 x =>
    exact .inr (.inr (.inr (.inr (.inr ⟨.inr (.inl ⟨x, rfl⟩), by simpa [exec, execReserved19] using h⟩))))
  | reserved20to23 l x =>
    exact .inr (.inr (.inr (.inr (.inr ⟨.inr (.inr (.inl ⟨l, x, rfl⟩)), by simpa [exec, execReserved20to23] using h⟩))))
  | reserved24to31 l x =>
    exact .inr (.inr (.inr (.inr (.inr ⟨.inr (.inr (.inr ⟨l, x, rfl⟩)), by simpa [exec, execReserved24to31] using h⟩))))

/-- A step that ends in a next state fetched a transaction, no fault being recorded, decoded it and ran the instruction after
`pc` had advanced. -/
theorem step_next_cases {s t : State} (h : step s = .next t) :
    ∃ x rest i, s.fault = none ∧ s.inbox = x :: rest ∧ inBounds s.memSize s.pc (max 1 x.length) = true ∧
      decode x.bundle x.text = .ok i ∧
      exec i { s with pc := s.pc + (x.length : Int), inbox := rest } = .next t := by
  unfold step at h
  split at h
  · cases h
  · cases h
  · rename_i x u hf
    obtain ⟨hn, rest, hi, hb, rfl⟩ := (fetch_next_iff _ _ _).mp hf
    split at h
    · cases h
    · rename_i i hd
      exact ⟨x, rest, i, hn, hi, hb, hd, h⟩

/-- No instruction reads or writes the run status (R11). -/
theorem exec_next_fault {i : Instr} {s t : State} (h : exec i s = .next t) : t.fault = s.fault := by
  rcases exec_next_cases h with ⟨-, p, -, -, rfl⟩ | ⟨-, d, v, rfl⟩ | ⟨-, x, rfl⟩ | ⟨-, a, b, -, rfl⟩ | ⟨-, a, b, c, -, rfl⟩ |
    ⟨-, rfl⟩ <;> rfl

/-- Where a step faults: the fetch did, or the instruction that it fetched (R103, U6). -/
theorem step_fault_cases {s : State} {f : Fault} (h : step s = .fault f) :
    fetch s = .fault f ∨
      ∃ x u i, fetch s = .next (x, u) ∧ decode x.bundle x.text = .ok i ∧ exec i u = .fault f := by
  unfold step at h
  split at h
  · rename_i g hg
    cases h
    exact .inl hg
  · cases h
  · rename_i x u hf
    split at h
    · cases h
    · rename_i i hd
      exact .inr ⟨x, u, i, hf, hd, h⟩

/-- The state that a step leaves (R64, R103, R104): the next state; none where it is refused; where the instruction raised, the
state that it ran on with the fault recorded; where the fetch faulted, the same state with the fault recorded. -/
theorem stepEnd_cases (s : State) :
    (∃ t, step s = .next t ∧ stepEnd s = some t) ∨ (∃ r, step s = .refused r ∧ stepEnd s = none) ∨
      (∃ f, step s = .fault f ∧ fetch s = .fault f ∧ stepEnd s = some (recordFault f s)) ∨
      (∃ f x u i, step s = .fault f ∧ fetch s = .next (x, u) ∧ decode x.bundle x.text = .ok i ∧
        exec i u = .fault f ∧ stepEnd s = some (faulted f u)) := by
  cases h : step s with
  | next t => exact .inl ⟨t, rfl, by simp [stepEnd, h]⟩
  | refused r => exact .inr (.inl ⟨r, rfl, by simp [stepEnd, h]⟩)
  | fault f =>
    rcases step_fault_cases h with hf | ⟨x, u, i, hf, hd, he⟩
    · exact .inr (.inr (.inl ⟨f, rfl, hf, by simp [stepEnd, h, hf]⟩))
    · exact .inr (.inr (.inr ⟨f, x, u, i, rfl, hf, hd, he, by simp [stepEnd, h, hf]⟩))

end Sys2Proof.Machine
end

