-- ==== Sys2Proof/Laws/Harness.lean ====
section
/-!
SUPPORT. What the harness's ends say, and what it does with a run that has faulted.
-/

namespace Sys2Proof.Machine

/-- When a run has its normal end (R123, R104). -/
theorem harnessEnded_iff (endAddr : Int) (s : State) : harnessEnded endAddr s = true ↔ s.pc = endAddr ∧ s.fault = none := by
  simp [harnessEnded, harnessFaulted]

/-- A faulted end is never a normal one (R104). -/
theorem harnessEnded_of_fault {s : State} {f : Fault} (h : s.fault = some f) (endAddr : Int) :
    harnessEnded endAddr s = false := by
  simp [harnessEnded, harnessFaulted, h]

/-- Nothing more is presented to a run that has faulted (R104). -/
theorem harnessPresent_of_fault {s : State} {f : Fault} (h : s.fault = some f) (program : List ProgramRow) :
    harnessPresent program s = .ok s := by
  simp [harnessPresent, harnessFaulted, h]

end Sys2Proof.Machine
end

