-- ==== Sys2Proof/Laws/PerInstr.lean ====
section
/-!
SUPPORT. Per-instruction family `EncodesWellFormed`: the words of a well-formed instruction are a canonical bundle that
satisfies `WF` (spec 30_encoding R42, R49).
-/

namespace Sys2Proof.Laws.EncodesWellFormed

/-- The encoded bundle satisfies `WF` and is canonical. -/
def Statement (i : Instr) : Prop :=
  i.wf = true → (unpack (encode i)).check = none ∧ (unpack (encode i)).canonical = true

theorem of_bundle {i : Instr}
    (h : i.wf = true → i.bundle.check = none ∧ i.bundle.canonical = true) : Statement i := by
  intro hw
  rw [encode, unpack_pack]
  exact h hw

theorem unread_canonical (tag : BitVec 5) (x : Unread) (h : x.canonical = true) :
    (unreadBundle tag x).canonical = true := by
  obtain ⟨n, a, b, c, d, br, st⟩ := x
  cases br <;> cases st <;> simpa [Unread.canonical, unreadBundle, Bundle.canonical] using h

theorem jump (d : Word16) : Statement (.jump d) := of_bundle fun _ => ⟨rfl, rfl⟩

theorem je (a : Word16) (cs : List Word16) (br : Branch) : Statement (.je a cs br) := of_bundle fun h => by
  have hl : cs.length ≤ 3 := by simpa [Instr.wf] using h
  match cs, hl with
  | [], _ => exact ⟨rfl, rfl⟩
  | [_], _ => exact ⟨rfl, rfl⟩
  | [_, _], _ => exact ⟨rfl, rfl⟩
  | [_, _, _], _ => exact ⟨rfl, rfl⟩

theorem jg (a b : Word16) (br : Branch) : Statement (.jg a b br) := of_bundle fun _ => ⟨rfl, rfl⟩
theorem jl (a b : Word16) (br : Branch) : Statement (.jl a b br) := of_bundle fun _ => ⟨rfl, rfl⟩
theorem jin (x : Unread) : Statement (.jin x) := of_bundle fun h => ⟨rfl, unread_canonical 4 x h⟩
theorem print (t : Text) : Statement (.print t) := of_bundle fun _ => ⟨rfl, rfl⟩
theorem printAddr (a : Word16) : Statement (.printAddr a) := of_bundle fun _ => ⟨rfl, rfl⟩
theorem printChar (u : SymbolUnit) : Statement (.printChar u) := of_bundle fun _ => ⟨rfl, rfl⟩
theorem add (a b : Word16) (d : VarRef) : Statement (.add a b d) := of_bundle fun _ => ⟨rfl, rfl⟩
theorem sub (a b : Word16) (d : VarRef) : Statement (.sub a b d) := of_bundle fun _ => ⟨rfl, rfl⟩
theorem mul (a b : Word16) (d : VarRef) : Statement (.mul a b d) := of_bundle fun _ => ⟨rfl, rfl⟩
theorem div (a b : Word16) (d : VarRef) : Statement (.div a b d) := of_bundle fun _ => ⟨rfl, rfl⟩
theorem mod (a b : Word16) (d : VarRef) : Statement (.mod a b d) := of_bundle fun _ => ⟨rfl, rfl⟩
theorem not (a : Word16) (d : VarRef) : Statement (.not a d) := of_bundle fun _ => ⟨rfl, rfl⟩
theorem or (a b : Word16) (d : VarRef) : Statement (.or a b d) := of_bundle fun _ => ⟨rfl, rfl⟩
theorem and (a b : Word16) (d : VarRef) : Statement (.and a b d) := of_bundle fun _ => ⟨rfl, rfl⟩
theorem store (v : VarRef) (x : Word16) : Statement (.store v x) := of_bundle fun _ => ⟨rfl, rfl⟩
theorem storeb (b o v : Word16) : Statement (.storeb b o v) := of_bundle fun _ => ⟨rfl, rfl⟩
theorem storew (b o v : Word16) : Statement (.storew b o v) := of_bundle fun _ => ⟨rfl, rfl⟩
theorem reserved19 (x : Unread) : Statement (.reserved19 x) := of_bundle fun h => ⟨rfl, unread_canonical 19 x h⟩

theorem reserved20to23 (l : BitVec 2) (x : Unread) : Statement (.reserved20to23 l x) := of_bundle fun h => by
  have hs : ∀ l : BitVec 2, shapeOf (BitVec.ofNat 5 (20 + l.toNat)) = ⟨none, none, none⟩ := by decide
  refine ⟨?_, unread_canonical _ x h⟩
  simp [Bundle.check, Instr.bundle, unreadBundle, hs l]

theorem reserved24to31 (l : BitVec 3) (x : Unread) : Statement (.reserved24to31 l x) := of_bundle fun h => by
  have hs : ∀ l : BitVec 3, shapeOf (BitVec.ofNat 5 (24 + l.toNat)) = ⟨none, none, none⟩ := by decide
  refine ⟨?_, unread_canonical _ x h⟩
  simp [Bundle.check, Instr.bundle, unreadBundle, hs l]

end Sys2Proof.Laws.EncodesWellFormed
end

