-- ==== Sys2Proof/Laws/Safety.lean ====
section
/-!
SUPPORT. The bounds of the configuration as numbers, and that the operations on memory keep its canonical form.
-/

namespace Sys2Proof.Machine

/-- `2^(PCW-1) - 32768` as a number (R4). -/
theorem memSizeMax_eq : Config.memSizeMax = 2147450880 := by decide

/-- Fitting the `PCW`-bit register, in numbers (R14). -/
theorem fitsPc_iff (p : Int) : FitsPc p ↔ -2147483648 ≤ p ∧ p < 2147483648 := by
  unfold FitsPc Config.pcWidth
  norm_num

/-- Reset's memory is in canonical form. -/
theorem reset_memory_wf : Memory.wf State.reset.memSize State.reset.mem := by
  simp [State.reset, Memory.wf]

/-- A byte write keeps the canonical form. -/
theorem writeByte_wf {a : Int} {v : Word16} {s t : State} (h : Memory.wf s.memSize s.mem)
    (hw : writeByte a v s = .ok t) : Memory.wf t.memSize t.mem := by
  rcases writeByte_cases a v s with ⟨hb, hc⟩ | ⟨-, hc⟩
  · rw [inBounds_iff] at hb
    obtain rfl : _ = t := Except.ok.inj (hc.symm.trans hw)
    have ha : a.toNat < s.memSize := by omega
    exact Memory.write_wf _ h ha
  · rw [hc] at hw
    cases hw

/-- A word write keeps the canonical form. -/
theorem writeWord_wf {a : Int} {v : Word16} {s t : State} (h : Memory.wf s.memSize s.mem)
    (hw : writeWord a v s = .ok t) : Memory.wf t.memSize t.mem := by
  rcases writeWord_cases a v s with ⟨hb, hc⟩ | ⟨-, hc⟩
  · rw [inBounds_iff] at hb
    obtain rfl : _ = t := Except.ok.inj (hc.symm.trans hw)
    have ha : a.toNat < s.memSize := by omega
    have hb' : a.toNat + 1 < s.memSize := by omega
    exact Memory.write_wf _ (Memory.write_wf _ h ha) hb'
  · rw [hc] at hw
    cases hw

/-- A variable write keeps the variables' form. -/
theorem storeVar_form {d : VarRef} {v : Word16} {s : State}
    (h : TableRising s.vars ∧ ∀ c ∈ s.vars, c.1 < 2 ^ 16) :
    TableRising (storeVar d v s).vars ∧ ∀ c ∈ (storeVar d v s).vars, c.1 < 2 ^ 16 := by
  refine ⟨tablePut_rising _ _ h.1, fun c hc => ?_⟩
  rcases mem_tablePut hc with rfl | hc
  · exact d.isLt
  · exact h.2 c hc

end Sys2Proof.Machine
end

