-- ==== Sys2Proof/Tests/Slice0.lean ====
section
/-!
SUPPORT. The model's own tests and the witnesses of the statements' hypotheses. Every expected value is the spec's:
95_test_vectors Part 1 (E1 to E9), Part 2 (tables 2.1 to 2.14) and Part 3 (the programs); the table is named at each group.
-/

namespace Sys2Proof.Tests

open Sys2Proof Sys2Proof.Machine

/-! ## A small state and what a step leaves in it -/

/-- The start state of table 2.13, with `pc` where the caller wants it and one presented word. Its encoded length is 0, so that
`pc` is the `A` of the tables. -/
def start (pc : Int) (w : Nat) (text : Text) : State where
  memSize := 1024
  mem := [(1023, 0x22)]
  pc := pc
  vars := [(19, 0x1111)]
  out := [[120]]
  status := .ok
  unimplemented := false
  fault := none
  inbox := [⟨BitVec.ofNat 107 w, text, 0⟩]
  readerRows := []

/-- What the step answers to a word. -/
def run (pc : Int) (w : Nat) (text : Text) : Result := step (start pc w text)

/-- The next state, if the step answers one. -/
def after : Result → Option State
  | .next t => some t
  | .fault _ => none
  | .refused _ => none

/-- The fault, if the step answers one. -/
def faultOf : Result → Option Fault
  | .next _ => none
  | .fault f => some f
  | .refused _ => none

/-- `pc` and the status after a word. -/
def pcAfter (pc : Int) (w : Nat) : Option (Int × Status) := (after (run pc w [])).map (fun t => (t.pc, t.status))

/-- The listed variables after a word. -/
def varsAfter (w : Nat) : Option (List (Nat × Word16)) := (after (run 60 w [])).map State.vars

/-- Some bytes of the image after a word. -/
def bytesAfter (w : Nat) (addrs : List Nat) : Option (List Byte) :=
  (after (run 60 w [])).map (fun t => addrs.map (Memory.read t.mem))

/-- The fault of a word. -/
def faultAfter (w : Nat) : Option Fault := faultOf (run 60 w [])

/-! ## Decoding: the words the spec prints (tables 2.2 to 2.12), one for each constructor -/

theorem test_decode_jump : decodeTableWord 107 0x000000000000000000000000A20 = some (.jump 10) := by decide
theorem test_decode_je : decodeTableWord 107 0x00000002B000900050003000581 = some (.je 5 [3, 5, 9] ⟨10, true⟩) := by decide
theorem test_decode_je_alone : decodeTableWord 107 0x000000029000000000000000521 = some (.je 5 [] ⟨10, false⟩) := by decide
theorem test_decode_jg : decodeTableWord 107 0x00003FFF1000000000003000342 = some (.jg 3 3 ⟨0xFFFC, false⟩) := by decide
theorem test_decode_jl : decodeTableWord 107 0x000000043000000000000FFFF43 = some (.jl 0xFFFF 0 ⟨16, true⟩) := by decide
theorem test_decode_jin : decodeTableWord 107 0x00000002B000000000009000744 =
    some (.jin ⟨2, 7, 9, 0, 0, some ⟨10, true⟩, none⟩) := by decide
theorem test_decode_print : decode 0x000000000000000000000000005 [72, 105] = .ok (.print [72, 105]) := by rfl
theorem test_decode_printAddr : decodeTableWord 107 0x000000000000000000000020026 = some (.printAddr 0x0200) := by decide
theorem test_decode_printChar : decodeTableWord 107 0x000000000000000000000004127 = some (.printChar 65) := by decide
theorem test_decode_add : decodeTableWord 107 0x000840000000000000003000248 = some (.add 2 3 16) := by decide
theorem test_decode_sub : decodeTableWord 107 0x0008C0000000000000001000549 = some (.sub 5 1 17) := by decide
theorem test_decode_mul : decodeTableWord 107 0x00094000000000000FFFE00034A = some (.mul 3 0xFFFE 18) := by decide
theorem test_decode_div : decodeTableWord 107 0x0009C0000000000000002FFF94B = some (.div 0xFFF9 2 19) := by decide
theorem test_decode_mod : decodeTableWord 107 0x000A4000000000000FFFE00074C = some (.mod 7 0xFFFE 20) := by decide
theorem test_decode_not : decodeTableWord 107 0x000AC000000000000000000FF2D = some (.not 0x00FF 21) := by decide
theorem test_decode_or : decodeTableWord 107 0x000B40000000000000F0000F04E = some (.or 0x00F0 0x0F00 22) := by decide
theorem test_decode_and : decodeTableWord 107 0x000BC00000000000000FF0FF04F = some (.and 0x0FF0 0x00FF 23) := by decide
theorem test_decode_store : decodeTableWord 107 0x000000000000000001234001050 = some (.store 0x0010 0x1234) := by decide
theorem test_decode_storeb : decodeTableWord 107 0x00000000000001234FFFF010071 =
    some (.storeb 0x0100 0xFFFF 0x1234) := by decide
theorem test_decode_storew : decodeTableWord 107 0x0000000000000BEEFFFFF010072 =
    some (.storew 0x0100 0xFFFF 0xBEEF) := by decide
theorem test_decode_reserved19 : decodeTableWord 107 0x000000000000000000000000013 =
    some (.reserved19 ⟨0, 0, 0, 0, 0, none, none⟩) := by decide
theorem test_decode_reserved20 : decodeTableWord 107 0x000000000000000000002000154 =
    some (.reserved20to23 0 ⟨2, 1, 2, 0, 0, none, none⟩) := by decide
theorem test_decode_reserved31 : decodeTableWord 107 0x7FFFFFFFFFFFFFFFFFFFFFFFF9F =
    some (.reserved24to31 7 ⟨4, 0xFFFF, 0xFFFF, 0xFFFF, 0xFFFF, some ⟨0xFFFF, true⟩, some 0xFFFF⟩) := by decide
/-- A number of more than 107 bits is no bundle. -/
theorem test_decode_too_wide : decodeTableWord 112 (2 ^ 107) = none := by decide

/-- The encoder writes the words the spec prints, one for each format (R41). -/
theorem test_encode_formats :
    encode (.jump 10) = 0x000000000000000000000000A20 ∧
    encode (.je 5 [3, 5, 9] ⟨10, true⟩) = 0x00000002B000900050003000581 ∧
    encode (.jl 0xFFFF 0 ⟨16, true⟩) = 0x000000043000000000000FFFF43 ∧
    encode (.print [72, 105]) = 0x000000000000000000000000005 ∧
    encode (.mod 7 0xFFFE 20) = 0x000A4000000000000FFFE00074C ∧
    encode (.storew 0x0100 0xFFFF 0xBEEF) = 0x0000000000000BEEFFFFF010072 ∧
    encode (.reserved24to31 7 ⟨4, 0xFFFF, 0xFFFF, 0xFFFF, 0xFFFF, some ⟨0xFFFF, true⟩, some 0xFFFF⟩) =
      0x7FFFFFFFFFFFFFFFFFFFFFFFF9F := by decide

/-- The notation of R47 on the instruction of E5 and on the wide words of tables 2.2 and 2.9. -/
theorem test_assemble :
    (asmBundle ⟨.jump, [.num 10], none, [], none⟩ [10]).map pack = some 0x000000000000000000000000A20 ∧
    (asmBundle ⟨.je, [.num 5, .num 3, .num 5, .num 9], some (true, 10), [], none⟩ [5, 3, 5, 9]).map pack =
      some 0x00000002B000900050003000581 ∧
    (asmBundle ⟨.add, [.num 2, .num 3], none, [], some 16⟩ [2, 3]).map pack = some 0x000840000000000000003000248 := by
  decide

/-! ## Ill-formed terms and bundles -/

/-- `JE` has room for three comparison operands (R37). -/
theorem test_wf_je_four_comparands : (Instr.je 5 [1, 2, 3, 4] ⟨10, true⟩).wf = false := by decide
/-- A canonical unread slot that is absent is zero (R49). -/
theorem test_wf_jin_absent_slot : (Instr.jin ⟨1, 7, 9, 0, 0, none, none⟩).wf = false := by decide
theorem test_wf_reserved19_absent_slot : (Instr.reserved19 ⟨0, 1, 0, 0, 0, none, none⟩).wf = false := by decide
theorem test_wf_reserved20_absent_slot : (Instr.reserved20to23 1 ⟨2, 1, 2, 3, 0, none, none⟩).wf = false := by decide
theorem test_wf_reserved24_absent_slot : (Instr.reserved24to31 5 ⟨3, 1, 2, 3, 4, none, none⟩).wf = false := by decide

/-- The fifteen bundles of table 2.14, with the reason each is refused. -/
theorem test_malformed_counts :
    decode 0x000840000000000000000000228 [] = .error (.operandCount 8 1) ∧
    decode 0x000840000000000000003000268 [] = .error (.operandCount 8 3) ∧
    decode 0x000AC000000000000000000FF4D [] = .error (.operandCount 13 2) ∧
    decode 0x00000002B000000000000000001 [] = .error (.operandCount 1 0) ∧
    decode 0x00000002B0009000500030005A1 [] = .error (.operandCount 1 5) ∧
    decode 0x000000000000000000000000000 [] = .error (.operandCount 0 0) ∧
    decode 0x000000000000000000000000025 [] = .error (.operandCount 5 1) ∧
    decode 0x00000000000000000FFFF010052 [] = .error (.operandCount 18 2) ∧
    decode 0x0009C00000000000000020007EB [] = .error (.operandCount 11 7) := by
  refine ⟨rfl, rfl, rfl, rfl, rfl, rfl, rfl, rfl, rfl⟩
theorem test_malformed_fields :
    decode 0x000000000000000000003000248 [] = .error (.destMissing 8) ∧
    decode 0x000840001000000000003000248 [] = .error (.branchSurplus 8) ∧
    decode 0x000000000000000000003000442 [] = .error (.branchMissing 2) ∧
    decode 0x00004001B000000000003000442 [] = .error (.destSurplus 2) ∧
    decode 0x00000002B000000000000000A20 [] = .error (.branchSurplus 0) ∧
    decode 0x000840000000000001234001050 [] = .error (.destSurplus 16) := by
  refine ⟨rfl, rfl, rfl, rfl, rfl, rfl⟩

/-! ## The numeric units (table 2.1, E1, E6) -/

theorem test_signed : signed 0x7FFF = 32767 ∧ signed 0x8000 = -32768 ∧ signed 0xFFF9 = -7 := by decide
theorem test_trunc16 : trunc16 (-1073709056) = 0x8000 ∧ trunc16 (-65537) = 0xFFFF ∧ trunc16 (-32769) = 0x7FFF ∧
    trunc16 90000 = 0x5F90 ∧ trunc16 65536 = 0 := by decide
/-- The magnitude datapath on the rows of tables 2.5 and 2.6 where a sign or the extreme value matters. -/
theorem test_datapath : divideDatapath 0xFFF9 2 = some (0xFFFD, 0xFFFF) ∧ divideDatapath 7 0xFFFE = some (0xFFFD, 1) ∧
    divideDatapath 0x8000 0xFFFF = some (0x8000, 0) ∧ divideDatapath 7 0 = none := by decide

/-! ## Control transfer (tables 2.8, 2.9, 2.10) -/

theorem test_jump : pcAfter 100 0x000000000000000000000FFFA20 = some (92, .ok) := by decide
theorem test_jump_negative : pcAfter 5 0x000000000000000000000FFF620 = some (-7, .ok) := by decide
theorem test_je_taken : pcAfter 200 0x00000002B000900050003000581 = some (208, .ok) := by decide
theorem test_je_polarity : pcAfter 200 0x000000029000900050003000581 = some (200, .ok) := by decide
theorem test_jg_signed : pcAfter 50 0x00000001B0000000080007FFF42 = some (54, .ok) := by decide
theorem test_jg_equal_false : pcAfter 50 0x00003FFF1000000000003000342 = some (44, .ok) := by decide
theorem test_jl_signed : pcAfter 300 0x00000000F000000007FFF800043 = some (301, .ok) := by decide
theorem test_jl_far : pcAfter 300 0x00001FFFF000000000004000343 = some (33065, .ok) := by decide
theorem test_jin : run 60 0x00000002B000000000009000744 [] =
    .next { start 60 0 [] with inbox := [], status := .unimplemented, unimplemented := true } := by rfl
theorem test_reserved19 : pcAfter 60 0x000000000000000000000000013 = some (60, .unimplemented) := by decide
theorem test_reserved20 : pcAfter 60 0x000000000000000000002000154 = some (60, .unimplemented) := by decide
theorem test_reserved31 : run 60 0x7FFFFFFFFFFFFFFFFFFFFFFFF9F [] =
    .next { start 60 0 [] with inbox := [], status := .unimplemented, unimplemented := true } := by rfl

/-! ## Text output (table 2.12) -/

theorem test_print : (after (run 60 0x000000000000000000000000005 [72, 105])).map State.out =
    some [[120], [72, 105]] := by decide
theorem test_print_empty : (after (run 60 0x000000000000000000000000005 [])).map State.out = some [[120], []] := by decide
theorem test_printAddr_outside : faultAfter 0x000000000000000000000040026 = some (.outOfBounds 1024) := by decide
theorem test_printChar : (after (run 60 0x000000000000000000000004127 [])).map State.out =
    some [[120], Config.translate 0 (Config.versionOf (Memory.image 1024 [(1023, 0x22)])) [65]] := by rfl

/-- A four-byte image with one listed answer of the string reader. -/
def readerState : State where
  memSize := 4
  mem := []
  pc := 0
  vars := []
  out := []
  status := .ok
  unimplemented := false
  fault := none
  inbox := []
  readerRows := [⟨[0, 0, 0, 0], 2, 0, some (6, [65, 66])⟩, ⟨[0, 0, 0, 0], 3, 0, none⟩]

theorem test_printAddr : (after (exec (.printAddr 2) readerState)).map State.out =
    some [Config.translate 0 (Config.versionOf [0, 0, 0, 0]) [65, 66]] := by rfl

/-! ## Arithmetic and logic (tables 2.2 to 2.7) -/

theorem test_add_overflow : varsAfter 0x0008400000000000000017FFF48 = some [(16, 0x8000), (19, 0x1111)] := by decide
theorem test_add_underflow : varsAfter 0x00084000000000000FFFF800048 = some [(16, 0x7FFF), (19, 0x1111)] := by decide
theorem test_sub_order : varsAfter 0x0008C0000000000000005000149 = some [(17, 0xFFFC), (19, 0x1111)] := by decide
theorem test_sub_extreme : varsAfter 0x0008C0000000000008000000049 = some [(17, 0x8000), (19, 0x1111)] := by decide
theorem test_mul_signs : varsAfter 0x00094000000000000FFFE00034A = some [(18, 0xFFFA), (19, 0x1111)] := by decide
theorem test_mul_low : varsAfter 0x00094000000000000012C012C4A = some [(18, 0x5F90), (19, 0x1111)] := by decide
theorem test_div : varsAfter 0x0009C0000000000000002FFF94B = some [(19, 0xFFFD)] ∧
    varsAfter 0x0009C000000000000FFFF80004B = some [(19, 0x8000)] := by decide
theorem test_mod : varsAfter 0x000A40000000000000002FFF94C = some [(19, 0x1111), (20, 0xFFFF)] ∧
    varsAfter 0x000A4000000000000FFFE00074C = some [(19, 0x1111), (20, 1)] := by decide
theorem test_div_by_zero : faultAfter 0x0009C000000000000000000064B = some .divideByZero := by decide
theorem test_mod_by_zero : faultAfter 0x0009C000000000000000000064C = some .divideByZero := by decide
theorem test_not : varsAfter 0x000AC000000000000000000FF2D = some [(19, 0x1111), (21, 0xFF00)] := by decide
theorem test_or : varsAfter 0x000B40000000000000F0000F04E = some [(19, 0x1111), (22, 0x0FF0)] := by decide
theorem test_and : varsAfter 0x000BC0000000000008001FFFF4F = some [(19, 0x1111), (23, 0x8001)] := by decide

/-! ## Stores (table 2.11) -/

theorem test_store : varsAfter 0x00000000000000000ABCDFFFF50 = some [(19, 0x1111), (65535, 0xABCD)] := by decide
theorem test_storeb : bytesAfter 0x00000000000001234FFFF010071 [254, 255, 256] = some [0, 0x34, 0] := by decide
theorem test_storeb_outside : faultAfter 0x00000000000000099000103FF71 = some (.outOfBounds 1024) := by decide
theorem test_storew : bytesAfter 0x0000000000000BEEFFFFF010072 [253, 254, 255, 256] = some [0, 0xBE, 0xEF, 0] := by decide
theorem test_storew_second_byte_outside : faultAfter 0x00000000000009988000003FF72 = some (.outOfBounds 1023) := by decide

/-! ## The fetch, reset, the harness (U6, Part 3) -/

/-- After the last row of table 2.8 `pc` is `-7`, and the next fetch faults. -/
theorem test_fetch_negative : faultOf (run (-7) 0x000000000000000000000000004 []) = some (.fetchOutOfBounds (-7)) := by decide
/-- The first instruction after reset, presented as a word of the opcode table: one byte long, so `A` is 1. -/
theorem test_first_step : (after (step (State.reset.withFetchWord 107 0x000000000000000000000000A20))).map State.pc =
    some 9 := by decide
/-- What the harness's step leaves of `pc`, the variables and the end flag. -/
def harnessView (e : Except HarnessError Result) : Option (Int × List (Nat × Word16)) :=
  match e with
  | .ok r => (after r).map (fun t => (t.pc, t.vars))
  | .error _ => none

/-- Program 1 (3.1, the source's E9). -/
def program1 : List ProgramRow :=
  [⟨0x100, 4, ⟨.add, [.num 2, .num 3], none, [], some 16⟩⟩, ⟨0x104, 4, ⟨.sub, [.var 16, .num 1], none, [], some 17⟩⟩,
    ⟨0x108, 5, ⟨.jg, [.var 17, .num 3], some (true, 6), [], none⟩⟩]

/-- The state before the third step of Program 1. -/
def beforeStep3 : State := { State.reset with pc := 0x108, vars := [(16, 5), (17, 4)] }

theorem test_program1_step1 : harnessView (harnessStep program1 { State.reset with pc := 0x100 }) =
    some (0x104, [(16, 5)]) := by decide
theorem test_program1_step3 : harnessView (harnessStep program1 beforeStep3) = some (0x111, [(16, 5), (17, 4)]) := by decide
theorem test_program1_ends : harnessEnded 0x111 { beforeStep3 with pc := 0x111 } = true := by decide
/-- Program 4 (3.4) before its last step. -/
def program4 : List ProgramRow := [⟨0x103, 4, ⟨.div, [.num 100, .var 16], none, [], some 17⟩⟩]
def beforeStep8 : State := { State.reset with pc := 0x103, vars := [(16, 0), (17, 0x64)] }

/-- What the harness's step leaves of `pc`, the variables, the status and the fault. -/
def endView (e : Except HarnessError (Option State)) : Option (Int × List (Nat × Word16) × Status × Option Fault) :=
  match e with
  | .ok r => r.map (fun t => (t.pc, t.vars, t.status, t.fault))
  | .error _ => none

/-- Program 4 ends faulted, `pc = 0x107` as the fetch step left it, the variables untouched (3.4, R103). -/
theorem test_program4_faulted_end : endView (harnessStepEnd program4 beforeStep8) =
    some (0x107, [(16, 0), (17, 0x64)], .divideByZero, some .divideByZero) := by decide
/-- The end of the one-row program `DIV(1, 0)` at 0x100, length 4. -/
def faultedAtEnd : Option State :=
  match harnessStepEnd [⟨0x100, 4, ⟨.div, [.num 1, .num 0], none, [], some 16⟩⟩] { State.reset with pc := 0x100 } with
  | .ok r => r
  | .error _ => none
/-- With `END = 0x104` its `pc` stands at `END`, and the end is faulted, not normal (R104). -/
theorem test_faulted_end_is_not_normal : faultedAtEnd.map (fun t => (t.pc, harnessFaulted t, harnessEnded 0x104 t)) =
    some (0x104, true, false) := by decide
/-- Program 5 ends faulted, `pc = 0x116` as the fetch step left it (3.5). -/
theorem test_program5_faulted_end : endView (harnessStepEnd [⟨0x111, 5, ⟨.storew, [.num 0x3FE, .num 1, .num 0x5678], none, [], none⟩⟩]
    { State.reset with pc := 0x111 }) = some (0x116, [], .outOfBounds, some (.outOfBounds 0x400)) := by decide
/-- An operand that names a variable never written is a harness error (D25). -/
theorem test_harness_unwritten :
    harnessPresent program1 { State.reset with pc := 0x104 } = .error .unwrittenVariable := by rfl

/-! ## Witnesses: a state and operands that meet the hypotheses of each statement together -/

theorem witness_JeBranchesOnAnyEqual : ([3, 5, 9] : List Word16).length ≤ 3 := by decide

theorem witness_ReservedWordsNeverTrap :
    ((0x4 : BundleWord).extractLsb' 0 5).toNat = 4 ∧ 19 ≤ ((0x13 : BundleWord).extractLsb' 0 5).toNat ∧
      19 ≤ ((0x7FFFFFFFFFFFFFFFFFFFFFFFF9F : BundleWord).extractLsb' 0 5).toNat := by decide

/-- The reader answers units, fails inside the image, and its operand is outside at the first address past the end. -/
theorem witness_PrintAddrEmitsTheStringRead :
    readString ((2 : Word16).toNat : Int) 0 readerState = some (6, [65, 66]) ∧
      readString ((3 : Word16).toNat : Int) 0 readerState = none ∧ readerState.memSize ≤ (4 : Word16).toNat := by
  decide

theorem witness_DivStoresTruncatingQuotient : (0xFFFF : Word16) ≠ 0 ∧ (0 : Word16) = 0 := by decide
theorem witness_ModStoresDividendSignedRemainder : (0x8000 : Word16) ≠ 0 ∧ (0 : Word16) = 0 := by decide

/-- The first and the last byte inside, and the nearest addresses outside. -/
theorem witness_StorebWritesOneByte :
    (0 ≤ byteAddress 0 0 ∧ byteAddress 0 0 ≤ ((start 0 0 []).memSize : Int) - 1) ∧
    (0 ≤ byteAddress 0x3FF 0 ∧ byteAddress 0x3FF 0 ≤ ((start 0 0 []).memSize : Int) - 1) ∧
    byteAddress 0 0xFFFF < 0 ∧ byteAddress 0x3FF 1 > ((start 0 0 []).memSize : Int) - 1 := by decide
theorem witness_StorewWritesBigEndianWord :
    (0 ≤ wordAddress 0 0 ∧ wordAddress 0 0 + 1 ≤ ((start 0 0 []).memSize : Int) - 1) ∧
    (0 ≤ wordAddress 0x3FE 0 ∧ wordAddress 0x3FE 0 + 1 ≤ ((start 0 0 []).memSize : Int) - 1) ∧
    wordAddress 1 0xFFFF < 0 ∧ wordAddress 0x3FF 0 + 1 > ((start 0 0 []).memSize : Int) - 1 := by decide

theorem witness_SignedIsBijectionOntoRange :
    (0x8000 : Word16).getLsbD 15 = true ∧ (0x7FFF : Word16).getLsbD 15 = false ∧ signed 0x8000 = signed 0x8000 ∧
      (-32768 : Int) ≤ -32768 ∧ (32767 : Int) ≤ 32767 := by decide
theorem witness_TruncationRoundTrips : (-32768 : Int) ≤ -32768 ∧ (-32768 : Int) ≤ 32767 := by decide
theorem witness_QuotientTruncatesTowardZero : (2 : Int) ≠ 0 ∧ (0 : Int) ≤ 7 * 2 ∧ (-7 : Int) * 2 ≤ 0 := by decide
theorem witness_OnlyOneQuotientOverflows :
    (0xFFFF : Word16) ≠ 0 ∧ ((0x8000 : Word16) = 0x8000 ∧ (0xFFFF : Word16) = 0xFFFF) ∧
      ¬ ((0x8001 : Word16) = 0x8000 ∧ (0xFFFF : Word16) = 0xFFFF) := by decide
theorem witness_RemainderFollowsDividend : (-2 : Int) ≠ 0 ∧ (0 : Int) ≤ 7 ∧ (-7 : Int) ≤ 0 := by decide
theorem witness_StoredRemainderIsExact : (0x8000 : Word16) ≠ 0 := by decide
theorem witness_DivisionIdentityHolds : (-2 : Int) ≠ 0 := by decide
theorem witness_MagnitudeDatapathRealisesUnits : (0 : Word16) = 0 ∧ (0x8000 : Word16) ≠ 0 := by decide

theorem witness_MixedWidthAccessesSeePlainBytes :
    (∃ t, writeWord 1022 0xCAFE (start 0 0 []) = .ok t) ∧ (∃ t, writeByte 1023 0x007F (start 0 0 []) = .ok t) ∧
      ((∃ t, writeByte 1022 0x007F (start 0 0 []) = .ok t) ∧ (1022 : Int) + 1 ≤ ((start 0 0 []).memSize : Int) - 1) :=
  ⟨⟨_, rfl⟩, ⟨_, rfl⟩, ⟨_, rfl⟩, by decide⟩

theorem witness_BranchTargetsNeverWrap :
    PcInRange (start 1024 0 []) ∧ (start 1024 0 []).memSize ≤ Config.memSizeMax :=
  ⟨⟨by decide, by decide⟩, by decide⟩

/-- The two ends of the range, and the displacement of Program 2 (R119). -/
theorem witness_DisplacementReachesItsTarget :
    displacementTo (-32770) 0 = some 0x8000 ∧ displacementTo 32765 0 = some 0x7FFF ∧
      displacementTo 0x103 0x115 = some 0xFFF0 ∧ displacementTo 32766 0 = none := by decide

theorem witness_DecoderAcceptsExactlyWellFormed :
    8 = ((0x000840000000000000003000248 : BundleWord).extractLsb' 0 5).toNat ∧
    2 = ((0x000840000000000000003000248 : BundleWord).extractLsb' 5 3).toNat ∧
    false = (0x000840000000000000003000248 : BundleWord).getLsbD 72 ∧
    true = (0x000840000000000000003000248 : BundleWord).getLsbD 90 := by decide

theorem witness_TagAloneSelectsOpcode : decode 0x000840000000000000003000248 [] = .ok (.add 2 3 16) := by rfl

/-- One bundle for each clause: no operand, one, two, three, no branch, no destination, not `PRINT`. -/
theorem witness_AbsentFieldsAreNotRead :
    (opsBundle 5 []).nops.toNat ≤ 0 ∧ (opsBundle 0 [10]).nops.toNat ≤ 1 ∧ (opsBundle 8 [2, 3]).nops.toNat ≤ 2 ∧
    (opsBundle 17 [1, 2, 3]).nops.toNat ≤ 3 ∧ (opsBundle 0 [10]).brValid = false ∧ (opsBundle 0 [10]).stValid = false ∧
    (opsBundle 0 [10]).tag ≠ 5 := by decide

theorem witness_DecodeOfEncodeIsTheInstruction : (Instr.je 5 [3, 5, 9] ⟨10, true⟩).wf = true := by decide

/-- A canonical word, and one that is not (an absent slot is not zero); both decode. -/
theorem witness_EncodeOfDecodeIsCanonicalWord :
    decode 0x000000000000000000000000A20 [] = .ok (.jump 10) ∧ (unpack 0x000000000000000000000000A20).canonical = true ∧
    decode 0x000000000000000000001000A20 [] = .ok (.jump 10) ∧
    (unpack 0x000000000000000000001000A20).canonical = false := ⟨rfl, by decide, rfl, by decide⟩

/-- The presented transaction of `start`: the encoding ends exactly at the end of the image; one step completes, one faults. -/
theorem witness_StepRunsTheDecodedInstruction :
    (start 1023 0xA20 []).fault = none ∧ (start 1023 0xA20 []).inbox = ⟨0xA20, [], 0⟩ :: [] ∧
    (0 : Int) ≤ (start 1023 0xA20 []).pc ∧
    (start 1023 0xA20 []).pc + (max 1 0 : Nat) ≤ ((start 1023 0xA20 []).memSize : Int) ∧
    decode 0xA20 [] = .ok (.jump 10) ∧ (∃ t, step (start 1023 0xA20 []) = .next t) ∧
    decode 0x0009C000000000000000000064B [] = .ok (.div 6 0 19) ∧
    step (start 1023 0x0009C000000000000000000064B []) = .fault .divideByZero :=
  ⟨rfl, rfl, by decide, by decide, rfl, ⟨_, rfl⟩, rfl, rfl⟩

theorem witness_FetchOutsideImageFaults :
    (start (-1) 0xA20 []).fault = none ∧ (start (-1) 0xA20 []).inbox = ⟨0xA20, [], 0⟩ :: [] ∧
    (start (-1) 0xA20 []).pc < 0 ∧
    ((start 1024 0xA20 []).memSize : Int) < (start 1024 0xA20 []).pc + (max 1 0 : Nat) := ⟨rfl, rfl, by decide, by decide⟩

theorem witness_MalformedBundlesAreRefused :
    (start 60 0 []).fault = none ∧ (start 60 0 []).inbox = ⟨0, [], 0⟩ :: [] ∧ (0 : Int) ≤ (start 60 0 []).pc ∧
    (start 60 0 []).pc + (max 1 0 : Nat) ≤ ((start 60 0 []).memSize : Int) ∧
    decode 0 [] = .error (.operandCount 0 0) := ⟨rfl, rfl, by decide, by decide, rfl⟩

/-- A recorded fault, an empty queue, and a step that faults. -/
theorem witness_RunEndsAtAFaultOrWithoutTransaction :
    (recordFault .divideByZero State.reset).fault = some .divideByZero ∧
    (State.reset.fault = none ∧ State.reset.inbox = []) ∧
    step (start 60 0x0009C000000000000000000064B []) = .fault .divideByZero := ⟨rfl, ⟨rfl, rfl⟩, rfl⟩

/-- A fault of each kind, a next state of each status. -/
theorem witness_OnlyTheListedStatusesOccur :
    exec (.div 7 0 19) (start 60 0 []) = .fault .divideByZero ∧
    exec (.storew 0x3FF 0 1) (start 60 0 []) = .fault (.outOfBounds 1023) ∧
    (∃ t, exec (.reserved19 ⟨0, 0, 0, 0, 0, none, none⟩) (start 60 0 []) = .next t) ∧
    (∃ t, exec (.add 2 3 16) (start 60 0 []) = .next t) := ⟨rfl, rfl, ⟨_, rfl⟩, ⟨_, rfl⟩⟩

theorem witness_OnlyControlTransferMovesPc :
    ∃ t, exec (.jg 4 3 ⟨6, true⟩) (start 60 0 []) = .next t ∧ t.pc ≠ (start 60 0 []).pc := ⟨_, rfl, by decide⟩

theorem witness_EachInstructionWritesItsOwnSpace :
    (∃ t, exec (.storeb 0 0 1) (start 60 0 []) = .next t ∧ t.mem ≠ (start 60 0 []).mem) ∧
    (∃ t, exec (.store 16 5) (start 60 0 []) = .next t ∧ t.vars ≠ (start 60 0 []).vars) ∧
    (∃ t, exec (.print []) (start 60 0 []) = .next t ∧ t.out ≠ (start 60 0 []).out) :=
  ⟨⟨_, rfl, by decide⟩, ⟨_, rfl, by decide⟩, ⟨_, rfl, by decide⟩⟩

/-- A step to a next state: for the statements whose only hypothesis is one. -/
theorem witness_OutputOnlyGrowsAtItsEnd : ∃ t, step (start 60 0x000000000000000000000000005 [72]) = .next t := ⟨_, rfl⟩
theorem witness_RunMarkRecordsUnimplemented : ∃ t, step (start 60 0x4 []) = .next t := ⟨_, rfl⟩
theorem witness_StepKeepsConfigurationAndConsumesOne : ∃ t, step (start 60 0xA20 []) = .next t := ⟨_, rfl⟩

/-- A state that differs from `start` in `VAR`, `OUT`, the status and the mark. -/
def otherStart (w : Nat) : State :=
  { start 60 w [] with vars := [], out := [], status := .unimplemented, unimplemented := true }

theorem witness_StepDependsOnItsInputsAlone :
    (SameInputs (start 60 0xA20 []) (otherStart 0xA20) ∧ ∃ t, step (start 60 0xA20 []) = .next t) ∧
    (SameInputs (start 60 0x0009C000000000000000000064B []) (otherStart 0x0009C000000000000000000064B) ∧
      step (start 60 0x0009C000000000000000000064B []) = .fault .divideByZero) ∧
    (SameInputs (start 60 0 []) (otherStart 0) ∧ step (start 60 0 []) = .refused (.malformed (.operandCount 0 0))) :=
  ⟨⟨⟨rfl, rfl, rfl, rfl, rfl, rfl⟩, _, rfl⟩, ⟨⟨rfl, rfl, rfl, rfl, rfl, rfl⟩, rfl⟩, ⟨⟨rfl, rfl, rfl, rfl, rfl, rfl⟩, rfl⟩⟩

/-- All hypotheses together, for `DIV(6, 3)` and for a word store that ends at the last byte of the image. -/
theorem witness_StepCompletesUnlessTheSpecFaults (i : Instr) (hi : i = .div 6 3 19 ∨ i = .storew 0x3FE 0 0xCAFE) :
    let s := { start 60 0 [] with inbox := [⟨encode i, [], 0⟩] }
    s.fault = none ∧ s.inbox = ⟨encode i, [], 0⟩ :: [] ∧ 0 ≤ s.pc ∧ s.pc + (max 1 0 : Nat) ≤ (s.memSize : Int) ∧
    decode (encode i) [] = .ok i ∧
    (∀ a b d, (i = .div a b d ∨ i = .mod a b d) → b ≠ 0) ∧
    (∀ b o v, i = .storeb b o v → 0 ≤ byteAddress b o ∧ byteAddress b o ≤ (s.memSize : Int) - 1) ∧
    (∀ b o v, i = .storew b o v → 0 ≤ wordAddress b o ∧ wordAddress b o + 1 ≤ (s.memSize : Int) - 1) ∧
    (∀ a, i = .printAddr a → readString (a.toNat : Int) 0 s ≠ none) := by
  rcases hi with rfl | rfl
  · refine ⟨rfl, rfl, by decide, by decide, rfl, ?_, ?_, ?_, ?_⟩
    · rintro a b d (h | h) <;> cases h
      decide
    · intro b o v h; cases h
    · intro b o v h; cases h
    · intro a h; cases h
  · refine ⟨rfl, rfl, by decide, by decide, rfl, ?_, ?_, ?_, ?_⟩
    · rintro a b d (h | h) <;> cases h
    · intro b o v h; cases h
    · intro b o v h
      cases h
      decide
    · intro a h; cases h

theorem witness_LaunchLoadsTheImage : 1 < ([7, 0] : List Byte).length := by decide

theorem witness_LaunchMeetsTheInvariant : LaunchOk [7, 0] 2 := ⟨by decide, by decide, by decide, by decide⟩

/-- A state that meets the invariant and steps: `pc` at the last byte, a written byte, a written variable. -/
theorem witness_EveryStepKeepsTheInvariant : Inv (start 1023 0xA20 []) ∧ ∃ t, step (start 1023 0xA20 []) = .next t :=
  ⟨⟨⟨by decide, by decide⟩, by decide, ⟨by decide, by decide⟩, ⟨by decide, by decide⟩, by decide, by decide, by decide⟩, _, rfl⟩

/-- The invariant says something: a status that is fatal breaks it. -/
theorem test_inv_is_not_trivial : ¬ Inv { start 60 0 [] with status := .divideByZero } := fun h => by
  have := h.statusNotFatal
  revert this
  decide

/-- A safe run: one step of `ADD(2, 3)`. -/
theorem test_safe_run : SafeRun 1 (start 60 0x000840000000000000003000248 []) := ⟨_, rfl, rfl, rfl⟩

end Sys2Proof.Tests
end

section
/-!
The output sink (spec 10_state R16): what an instruction and a step leave in `OUT`, and the obligation assembled from it.
-/

namespace Sys2Proof.Machine

/-- An instruction leaves `OUT` as it was, or extended by the one text that a print instruction emits (R16, R33). -/
theorem exec_next_out {i : Instr} {s t : State} (h : exec i s = .next t) :
    t.out = s.out ∨ ∃ x, t.out = s.out ++ [x] := by
  obtain ⟨-, p, -, -, rfl⟩ | ⟨-, d, v, rfl⟩ | ⟨-, x, rfl⟩ | ⟨-, a, b, -, rfl⟩ | ⟨-, a, b, c, -, rfl⟩ | ⟨-, rfl⟩ :=
    exec_next_cases h
  case inr.inr.inl => exact .inr ⟨x, emit_out x s⟩
  all_goals exact .inl rfl

/-- The fetch leaves `OUT` alone, so a step does to it what its instruction does (R12, R16). -/
theorem step_next_out {s t : State} (h : step s = .next t) : t.out = s.out ∨ ∃ x, t.out = s.out ++ [x] := by
  obtain ⟨_, _, _, -, -, -, -, hexec⟩ := step_next_cases h
  have hout := exec_next_out hexec
  exact hout

/-- Settles O50: `emit` is an append by definition, and a step does to `OUT` what the instruction it fetched does. -/
theorem outputOnlyGrowsAtItsEnd : Obligations.OutputOnlyGrowsAtItsEnd :=
  ⟨fun _ _ => rfl, fun _ _ => step_next_out⟩

end Sys2Proof.Machine
end

section
/-!
The memory accesses and the effective addresses (spec 20_memory R21, R24, R27): when an access is rejected, the ranges of the
addresses, and the obligations assembled from them.
-/

namespace Sys2Proof.Machine

/-- What a byte read does (R24). -/
theorem readByte_cases (a : Int) (s : State) :
    (inBounds s.memSize a 1 = true ∧ readByte a s = .ok (Memory.read s.mem a.toNat)) ∨
    (inBounds s.memSize a 1 = false ∧ readByte a s = .error (.outOfBounds a)) := by
  unfold readByte
  cases h : inBounds s.memSize a 1 <;> simp

/-- What a word read does (R24). -/
theorem readWord_cases (a : Int) (s : State) :
    (inBounds s.memSize a 2 = true ∧
      readWord a s = .ok (Memory.read s.mem a.toNat ++ Memory.read s.mem (a.toNat + 1))) ∨
    (inBounds s.memSize a 2 = false ∧ readWord a s = .error (.outOfBounds a)) := by
  unfold readWord
  cases h : inBounds s.memSize a 2 <;> simp

section
/-! An access of `n` bytes at `a`, by its two cases: the four accesses of R21 instantiate this at their own `_cases` lemma. -/

variable {α : Type} {size n : Nat} {a : Int} {r : Except Fault α} {x : α}

theorem access_eq_outOfBounds_iff
    (h : (inBounds size a n = true ∧ r = .ok x) ∨ (inBounds size a n = false ∧ r = .error (.outOfBounds a))) :
    r = .error (.outOfBounds a) ↔ a < 0 ∨ (size : Int) < a + (n : Int) := by
  rw [← inBounds_false_iff]
  rcases h with ⟨hb, rfl⟩ | ⟨hb, rfl⟩ <;> simp [hb]

theorem access_eq_ok_iff
    (h : (inBounds size a n = true ∧ r = .ok x) ∨ (inBounds size a n = false ∧ r = .error (.outOfBounds a))) :
    (∃ t, r = .ok t) ↔ 0 ≤ a ∧ a + (n : Int) ≤ (size : Int) := by
  rw [← inBounds_iff]
  rcases h with ⟨hb, rfl⟩ | ⟨hb, rfl⟩ <;> simp [hb]

end

/-- Settles O31: each access answers by its bounds check, whose linear form is the one stated. -/
theorem accessFailsIffOutsideImage : Obligations.AccessFailsIffOutsideImage := by
  intro a v s
  refine ⟨(access_eq_outOfBounds_iff (writeByte_cases a v s)).trans ?_,
    (access_eq_outOfBounds_iff (writeWord_cases a v s)).trans ?_,
    (access_eq_outOfBounds_iff (readByte_cases a s)).trans ?_,
    (access_eq_outOfBounds_iff (readWord_cases a s)).trans ?_,
    (access_eq_ok_iff (writeWord_cases a v s)).trans ?_,
    (access_eq_ok_iff (writeByte_cases a v s)).trans ?_⟩
  all_goals omega

/-- The range of `STOREB`'s address (R27): an unsigned base and one signed offset. -/
theorem byteAddress_bounds (base offset : Word16) :
    -32768 ≤ byteAddress base offset ∧ byteAddress base offset ≤ 98302 := by
  have hoffset := signed_bounds offset
  have hbase := base.isLt
  unfold byteAddress
  omega

/-- The range of `STOREW`'s address (R27): an unsigned base and twice a signed offset. -/
theorem wordAddress_bounds (base offset : Word16) :
    -65536 ≤ wordAddress base offset ∧ wordAddress base offset ≤ 131069 := by
  have hoffset := signed_bounds offset
  have hbase := base.isLt
  unfold wordAddress
  omega

/-- Settles O33: the addresses are the exact sums by definition, and their ranges lie inside `-2^18 .. 2^18 - 1`. -/
theorem effectiveAddressesAreExact : Obligations.EffectiveAddressesAreExact := by
  intro base offset
  have hbyte := byteAddress_bounds base offset
  have hword := wordAddress_bounds base offset
  have hbase := base.isLt
  refine ⟨rfl, rfl, hbyte, hword, ?_, ?_, ?_⟩
  all_goals omega

end Sys2Proof.Machine
end

section
/-!
The bundle and its decoder (spec 30_encoding R35, R42): the word as the weighted sum of its fields, the lines of `WF`, and the
obligations assembled from them.
-/

namespace Sys2Proof

/-- The integer formula of R35 on the fields that the decoder reads. -/
theorem toNat_eq_weighted_fields (w : BundleWord) :
    w.toNat = (unpack w).tag.toNat + (unpack w).nops.toNat * 2 ^ 5 + (unpack w).op0.toNat * 2 ^ 8 +
      (unpack w).op1.toNat * 2 ^ 24 + (unpack w).op2.toNat * 2 ^ 40 + (unpack w).op3.toNat * 2 ^ 56 +
      (unpack w).brValid.toNat * 2 ^ 72 + (unpack w).brPol.toNat * 2 ^ 73 + (unpack w).brDisp.toNat * 2 ^ 74 +
      (unpack w).stValid.toNat * 2 ^ 90 + (unpack w).stDest.toNat * 2 ^ 91 := by
  rw [← pack_toNat, pack_unpack]

/-- Settles O36: `unpack` reads the stated bits by definition, and the weighted sum is `pack` on the fields it reads. -/
theorem bundleIsItsFieldsWeighted : Obligations.BundleIsItsFieldsWeighted :=
  fun w => ⟨toNat_eq_weighted_fields w, rfl, pack_unpack w, unpack_pack⟩

/-- The lines of `WF` (R42), for a tag, an operand count, `br_valid` and `st_valid`. -/
def InWfTable (tag nops : Nat) (br st : Bool) : Prop :=
  (tag = 0 ∧ nops = 1 ∧ br = false ∧ st = false) ∨
  (tag = 1 ∧ 1 ≤ nops ∧ nops ≤ 4 ∧ br = true ∧ st = false) ∨
  ((tag = 2 ∨ tag = 3) ∧ nops = 2 ∧ br = true ∧ st = false) ∨
  (tag = 4 ∨ 19 ≤ tag) ∨
  (tag = 5 ∧ nops = 0 ∧ br = false ∧ st = false) ∨
  ((tag = 6 ∨ tag = 7) ∧ nops = 1 ∧ br = false ∧ st = false) ∨
  (((8 ≤ tag ∧ tag ≤ 12) ∨ tag = 14 ∨ tag = 15) ∧ nops = 2 ∧ br = false ∧ st = true) ∨
  (tag = 13 ∧ nops = 1 ∧ br = false ∧ st = true) ∨
  (tag = 16 ∧ nops = 2 ∧ br = false ∧ st = false) ∨
  ((tag = 17 ∨ tag = 18) ∧ nops = 3 ∧ br = false ∧ st = false)

/-- A bundle passes the check iff it stands in a line of `WF`: one case for each arm of `shapeOf`, where only `JE`'s
range of counts and the reserved tags (R44) need an argument. -/
theorem check_eq_none_iff_inWfTable (b : Bundle) :
    b.check = none ↔ InWfTable b.tag.toNat b.nops.toNat b.brValid b.stValid := by
  rw [check_eq_none_iff]
  unfold shapeOf InWfTable
  split
  case h_2 htag =>
    have hcount : b.nops.toNat ∈ [1, 2, 3, 4] ↔ 1 ≤ b.nops.toNat ∧ b.nops.toNat ≤ 4 := by
      simp only [List.mem_cons, List.not_mem_nil, or_false]
      omega
    simp [htag, -List.mem_cons, hcount, and_assoc]
  case h_20 =>
    have hreserved : 19 ≤ b.tag.toNat := by
      simp only [imp_false] at *
      omega
    simp [hreserved]
  all_goals
    rename_i htag
    simp [htag]

/-- The decoder answers exactly on the bundles that pass the check, whatever stands on the sideband (R42, R45). -/
theorem exists_decode_ok_iff (w : BundleWord) (text : Text) :
    (∃ i, decode w text = .ok i) ↔ (unpack w).check = none := by
  simp [decode_ok_iff]

/-- Settles O37: the decoder answers on what passes the check, and the check is the table of `WF`. -/
theorem decoderAcceptsExactlyWellFormed : Obligations.DecoderAcceptsExactlyWellFormed := by
  rintro w text _ _ _ _ rfl rfl rfl rfl
  exact (exists_decode_ok_iff w text).trans (check_eq_none_iff_inWfTable (unpack w))

end Sys2Proof
end

section
/-!
The numeric units (spec 40_numeric_units R51, R54, R56, R59, R60): `signed` as a bijection, the signs of the quotient and of
the remainder, the output of the MT, and the obligations assembled from them.
-/

namespace Sys2Proof.Machine

/-- `signed` tells all values apart (R51). -/
theorem signed_injective : Function.Injective signed := by
  intro v w h
  rw [signed_eq_toInt, signed_eq_toInt] at h
  exact BitVec.eq_of_toInt_eq h

/-- A value in the signed range is read back as it was stored (R54). -/
theorem signed_trunc16 {x : Int} (hlo : -32768 ≤ x) (hhi : x ≤ 32767) : signed (trunc16 x) = x := by
  rw [signed_eq_toInt, trunc16_eq_ofInt]
  apply BitVec.toInt_ofInt_eq_self <;> omega

/-- Settles O21: the two branches are the definition's, and `trunc16` finds the value of each integer in the range. -/
theorem signedIsBijectionOntoRange : Obligations.SignedIsBijectionOntoRange :=
  ⟨fun _ hbit => if_pos hbit, fun _ hbit => if_neg (Bool.eq_false_iff.mp hbit), signed_bounds, fun _ _ h => signed_injective h,
    fun x hlo hhi => ⟨trunc16 x, signed_trunc16 hlo hhi⟩⟩

section
/-! The signs of Lean's truncated division, which the library states for operands of known sign only. -/

variable {a b : Int}

theorem tdiv_nonneg_of_mul_nonneg (h : 0 ≤ a * b) : 0 ≤ a.tdiv b := by
  rw [← Int.sign_nonneg_iff, Int.sign_tdiv, ← Int.sign_mul]
  split
  · exact le_rfl
  · exact Int.sign_nonneg_iff.mpr h

theorem tdiv_nonpos_of_mul_nonpos (h : a * b ≤ 0) : a.tdiv b ≤ 0 := by
  have hneg : 0 ≤ a.tdiv (-b) := tdiv_nonneg_of_mul_nonneg (by linarith)
  rw [Int.tdiv_neg] at hneg
  omega

theorem tmod_nonpos_of_nonpos (h : a ≤ 0) : a.tmod b ≤ 0 := by
  have hneg : 0 ≤ (-a).tmod b := Int.tmod_nonneg b (by omega)
  rw [Int.neg_tmod] at hneg
  omega

theorem natAbs_tmod_lt (a : Int) (h : b ≠ 0) : (a.tmod b).natAbs < b.natAbs := by
  rw [Int.natAbs_tmod]
  exact Nat.mod_lt _ (Int.natAbs_pos.mpr h)

end

/-- Settles O25: the quotient is Lean's `tdiv`, whose magnitude the library knows. -/
theorem quotientTruncatesTowardZero : Obligations.QuotientTruncatesTowardZero := fun a b =>
  ⟨(quotient_eq_none_iff a 0).mpr rfl, fun hb =>
    ⟨a.tdiv b, quotient_eq_tdiv hb, Int.natAbs_tdiv a b, tdiv_nonneg_of_mul_nonneg, tdiv_nonpos_of_mul_nonpos, rfl⟩⟩

/-- Settles O27: the remainder is Lean's `tmod`, whose magnitude the library knows. -/
theorem remainderFollowsDividend : Obligations.RemainderFollowsDividend := fun a b =>
  ⟨(remainder_eq_none_iff a 0).mpr rfl, fun hb =>
    ⟨a.tmod b, remainder_eq_tmod hb, Int.natAbs_tmod a b, natAbs_tmod_lt a hb, Int.tmod_nonneg b, tmod_nonpos_of_nonpos⟩⟩

/-- The MT answers the truncated remainder of the signed operands (R60). -/
theorem mtUnit_eq_trunc16_tmod (a : Word16) {b : Word16} (hb : b ≠ 0) :
    mtUnit a b = some (trunc16 ((signed a).tmod (signed b))) := by
  rw [mtUnit, remainder_eq_tmod (mt (signed_eq_zero_iff b).mp hb), Option.map_some]

/-- The remainder always fits: it is smaller than the divisor, whose magnitude is at most 32768 (R60). -/
theorem natAbs_signed_tmod_le (a : Word16) {b : Word16} (hb : b ≠ 0) : ((signed a).tmod (signed b)).natAbs ≤ 32767 := by
  have hlt := natAbs_tmod_lt (signed a) (mt (signed_eq_zero_iff b).mp hb)
  have hbounds := signed_bounds b
  omega

/-- Settles O28: the MT stores the exact remainder, and what fits is read back. -/
theorem storedRemainderIsExact : Obligations.StoredRemainderIsExact := by
  intro a b
  refine ⟨(mtUnit_eq_none_iff a 0).mpr rfl, fun hb => ⟨_, mtUnit_eq_trunc16_tmod a hb, ?_⟩⟩
  have hfits := natAbs_signed_tmod_le a hb
  rw [signed_trunc16 (by omega) (by omega)]
  exact ⟨rfl, hfits⟩

end Sys2Proof.Machine
end

section
/-!
Control transfer (spec 41_branch R70 to R75): how an instruction with operands and perhaps a branch descriptor is encoded, where
a branch leaves `pc`, the three conditions, and the obligations assembled from them.
-/

namespace Sys2Proof.Machine

section
/-! The encoding of operands in order (R37, R41): a bundle has room for `MAX_OPS = 4` of them. -/

variable {i : Instr} {tag : BitVec 5} {ops : List Word16} {br : Branch}

theorem opsBundle_nops_toNat (tag : BitVec 5) (hroom : ops.length ≤ Config.maxOps) :
    (opsBundle tag ops).nops.toNat = ops.length :=
  Nat.mod_eq_of_lt (Nat.lt_of_le_of_lt hroom (by decide))

/-- Cut to their number, the four slots are the operands: the slots past them are the zeros. -/
theorem take_opsBundle_slots (tag : BitVec 5) (hroom : ops.length ≤ Config.maxOps) :
    [(opsBundle tag ops).op0, (opsBundle tag ops).op1, (opsBundle tag ops).op2, (opsBundle tag ops).op3].take ops.length =
      ops := by
  match ops, hroom with
  | [], _ => rfl
  | [_], _ => rfl
  | [_, _], _ => rfl
  | [_, _, _], _ => rfl
  | [_, _, _, _], _ => rfl

theorem encodesAs_of_bundle_eq_opsBundle (hbundle : i.bundle = opsBundle tag ops) (hroom : ops.length ≤ Config.maxOps) :
    EncodesAs i tag ops none none := by
  unfold EncodesAs
  rw [hbundle]
  exact ⟨rfl, opsBundle_nops_toNat tag hroom, take_opsBundle_slots tag hroom, rfl, rfl⟩

theorem encodesAs_of_bundle_eq_withBranch (hbundle : i.bundle = (opsBundle tag ops).withBranch br)
    (hroom : ops.length ≤ Config.maxOps) : EncodesAs i tag ops (some br) none := by
  unfold EncodesAs
  rw [hbundle]
  exact ⟨rfl, opsBundle_nops_toNat tag hroom, take_opsBundle_slots tag hroom, rfl, rfl⟩

end

/-- The target in Lean's own two's complement (R70). -/
theorem branchTarget_eq_toInt (pc : Int) (d : Word16) : branchTarget pc d = pc + d.toInt - 2 := by
  rw [branchTarget, signed_eq_toInt]

/-- The shared polarity rule (R71): a conditional branch completes and moves `pc` alone. -/
theorem complete_branchOn (cond : Bool) (br : Branch) (s : State) :
    complete (branchOn cond br s) =
      .next { s with pc := if cond = br.pol then s.pc + br.disp.toInt - 2 else s.pc, status := .ok } := by
  rw [branchOn, branchTaken, branchTarget_eq_toInt]
  by_cases htaken : cond = br.pol
  · simp [htaken, complete, setPc]
  · simp [htaken, complete]

theorem anyEqual_eq_decide (a : Word16) (cs : List Word16) : anyEqual a cs = decide (a ∈ cs) := by
  rw [Bool.eq_iff_iff, anyEqual_iff, decide_eq_true_iff]

theorem gt16_eq_decide (a b : Word16) : gt16 a b = decide (b.toInt < a.toInt) := by
  rw [gt16, signed_eq_toInt, signed_eq_toInt]

theorem lt16_eq_decide (a b : Word16) : lt16 a b = decide (a.toInt < b.toInt) := by
  rw [lt16, signed_eq_toInt, signed_eq_toInt]

/-- Settles O1: one operand, and the target of R70 written to `pc`. -/
theorem jumpMovesPcByDisplacement : Obligations.JumpMovesPcByDisplacement := by
  intro d s
  refine ⟨encodesAs_of_bundle_eq_opsBundle rfl (by simp [Config.maxOps]), ?_⟩
  rw [← branchTarget_eq_toInt]
  rfl

/-- Settles O2: `JE` is the polarity rule on membership among the comparison operands. -/
theorem jeBranchesOnAnyEqual : Obligations.JeBranchesOnAnyEqual := by
  intro a cs br s hcount
  refine ⟨encodesAs_of_bundle_eq_withBranch rfl (Nat.succ_le_succ hcount), ?_⟩
  rw [← anyEqual_eq_decide]
  exact complete_branchOn (anyEqual a cs) br s

/-- Settles O3: `JG` is the polarity rule on signed greater-than. -/
theorem jgBranchesOnSignedGreater : Obligations.JgBranchesOnSignedGreater := by
  intro a b br s
  refine ⟨encodesAs_of_bundle_eq_withBranch rfl (by simp [Config.maxOps]), ?_⟩
  rw [← gt16_eq_decide]
  exact complete_branchOn (gt16 a b) br s

/-- Settles O4: `JL` is the polarity rule on signed less-than. -/
theorem jlBranchesOnSignedLess : Obligations.JlBranchesOnSignedLess := by
  intro a b br s
  refine ⟨encodesAs_of_bundle_eq_withBranch rfl (by simp [Config.maxOps]), ?_⟩
  rw [← lt16_eq_decide]
  exact complete_branchOn (lt16 a b) br s

end Sys2Proof.Machine
end

section
/-!
Text output (spec 42_print R81 to R83): an emission as a completed step, `PRINT_ADDR` by the string reader's answer, and the
obligations assembled from them.
-/

namespace Sys2Proof.Machine

/-- A step that emits completes, and writes `OUT` alone (R16, R102). -/
theorem complete_emit (x : Text) (s : State) :
    complete (emit x s) = .next { s with out := s.out ++ [x], status := .ok } := rfl

section
/-! `PRINT_ADDR` by what the string reader answers at its operand (R82). -/

variable {a : Word16} {s : State}

theorem execPrintAddr_of_readString_eq_some {len : Int} {units : List SymbolUnit}
    (hread : readString (a.toNat : Int) 0 s = some (len, units)) :
    execPrintAddr a s = complete (emit (translateUnits units s) s) := by
  simp only [execPrintAddr, hread]

theorem execPrintAddr_of_readString_eq_none (hread : readString (a.toNat : Int) 0 s = none) :
    execPrintAddr a s = raise (.outOfBounds (a.toNat : Int)) := by
  simp only [execPrintAddr, hread]

/-- The reader answers nothing at an operand at or past the end of the image (R21, R25). -/
theorem readString_eq_none_of_memSize_le (marker : Int) (houtside : s.memSize ≤ a.toNat) :
    readString (a.toNat : Int) marker s = none := by
  apply readString_outside
  rw [inBounds_false_iff]
  omega

end

/-- Settles O8: no operand, and the text itself emitted. -/
theorem printAppendsItsText : Obligations.PrintAppendsItsText := by
  intro x s
  exact ⟨encodesAs_of_bundle_eq_opsBundle rfl (by simp [Config.maxOps]), rfl, complete_emit x s⟩

/-- Settles O9: by the string reader's answer, which is none outside the image. -/
theorem printAddrEmitsTheStringRead : Obligations.PrintAddrEmitsTheStringRead := by
  intro a s
  refine ⟨encodesAs_of_bundle_eq_opsBundle rfl (by simp [Config.maxOps]), ?_, execPrintAddr_of_readString_eq_none, ?_⟩
  · intro len units hread
    exact (execPrintAddr_of_readString_eq_some hread).trans (complete_emit (translateUnits units s) s)
  · intro houtside
    exact execPrintAddr_of_readString_eq_none (readString_eq_none_of_memSize_le 0 houtside)

/-- Settles O10: one operand, and the translation of that one unit emitted. -/
theorem printCharEmitsOneUnit : Obligations.PrintCharEmitsOneUnit := by
  intro u s
  exact ⟨encodesAs_of_bundle_eq_opsBundle rfl (by simp [Config.maxOps]), complete_emit (translateUnits [u] s) s⟩

end Sys2Proof.Machine
end

section
/-!
Signed arithmetic (spec 43_arithmetic R85 to R90): how an instruction with a store destination is encoded, a store as a completed
step, the results in Lean's own two's complement, and the obligations assembled from them.
-/

namespace Sys2Proof.Machine

theorem encodesAs_of_bundle_eq_withDest {i : Instr} {tag : BitVec 5} {ops : List Word16} {dest : VarRef}
    (hbundle : i.bundle = (opsBundle tag ops).withDest dest) (hroom : ops.length ≤ Config.maxOps) :
    EncodesAs i tag ops none (some dest) := by
  unfold EncodesAs
  rw [hbundle]
  exact ⟨rfl, opsBundle_nops_toNat tag hroom, take_opsBundle_slots tag hroom, rfl, rfl⟩

/-- A step that stores completes, and writes the one variable alone (R15, R102). -/
theorem exists_complete_storeVar_storesOnly (d : VarRef) (v : Word16) (s : State) :
    ∃ t, complete (storeVar d v s) = .next t ∧ StoresOnly d v s t := by
  refine ⟨{ storeVar d v s with status := .ok }, rfl, ?_⟩
  have hread : ∀ e, readVar e { storeVar d v s with status := .ok } = if d = e then v else readVar e s :=
    readVar_storeVar d (v := v) (s := s)
  exact {
    stored := by rw [hread, if_pos rfl]
    others := fun e hne => by rw [hread, if_neg hne.symm]
    memSize := rfl
    mem := rfl
    pc := rfl
    out := rfl
    status := rfl
    unimplemented := rfl
    fault := rfl
    inbox := rfl
    readerRows := rfl }

section
/-! The results in Lean's own two's complement (R52, R55, R56). -/

variable (a b : Word16)

theorem add16_eq_ofInt : add16 a b = BitVec.ofInt 16 (a.toInt + b.toInt) := by
  rw [add16, trunc16_eq_ofInt, signed_eq_toInt, signed_eq_toInt]

theorem sub16_eq_ofInt : sub16 a b = BitVec.ofInt 16 (a.toInt - b.toInt) := by
  rw [sub16, trunc16_eq_ofInt, signed_eq_toInt, signed_eq_toInt]

theorem mul16_eq_ofInt : mul16 a b = BitVec.ofInt 16 (a.toInt * b.toInt) := by
  rw [mul16, trunc16_eq_ofInt, signed_eq_toInt, signed_eq_toInt]

variable {b}

theorem sdeUnit_eq_ofInt_tdiv (hb : b ≠ 0) : sdeUnit a b = some (BitVec.ofInt 16 (a.toInt.tdiv b.toInt)) := by
  rw [sdeUnit, quotient_eq_tdiv (mt (signed_eq_zero_iff b).mp hb), Option.map_some, trunc16_eq_ofInt, signed_eq_toInt,
    signed_eq_toInt]

theorem mtUnit_eq_ofInt_tmod (hb : b ≠ 0) : mtUnit a b = some (BitVec.ofInt 16 (a.toInt.tmod b.toInt)) := by
  rw [mtUnit_eq_trunc16_tmod a hb, trunc16_eq_ofInt, signed_eq_toInt, signed_eq_toInt]

/-- The stored remainder is exact, as it always fits (R60). -/
theorem toInt_ofInt_tmod (hb : b ≠ 0) : (BitVec.ofInt 16 (a.toInt.tmod b.toInt)).toInt = a.toInt.tmod b.toInt := by
  have hfits := natAbs_signed_tmod_le a hb
  have hexact := signed_trunc16 (x := (signed a).tmod (signed b)) (by omega) (by omega)
  rwa [signed_eq_toInt, trunc16_eq_ofInt, signed_eq_toInt, signed_eq_toInt] at hexact

end

section
/-! The store of a dividing unit's output by what the unit answers (R89, R90, R107). -/

variable {result : Option Word16} {v : Word16} (d : VarRef) (s : State)

theorem exists_storeUnit_storesOnly_of_eq_some (hresult : result = some v) :
    ∃ t, storeUnit result d s = .next t ∧ StoresOnly d v s t := by
  rw [hresult]
  exact exists_complete_storeVar_storesOnly d v s

theorem storeUnit_eq_divideByZero_of_eq_none (hresult : result = none) : storeUnit result d s = .fault .divideByZero := by
  rw [hresult]
  rfl

end

/-- Settles O11: `ofInt` carries the sum of the signed operands to the sum of the words. -/
theorem addStoresTruncatedSum : Obligations.AddStoresTruncatedSum := by
  intro a b d s
  refine ⟨encodesAs_of_bundle_eq_withDest rfl (by simp [Config.maxOps]), ?_, ?_⟩
  · rw [BitVec.ofInt_add, BitVec.ofInt_toInt, BitVec.ofInt_toInt]
  · rw [← add16_eq_ofInt]
    exact exists_complete_storeVar_storesOnly d (add16 a b) s

/-- Settles O12: a difference is the sum with the negated subtrahend, as integers and as words. -/
theorem subStoresTruncatedDifference : Obligations.SubStoresTruncatedDifference := by
  intro a b d s
  refine ⟨encodesAs_of_bundle_eq_withDest rfl (by simp [Config.maxOps]), ?_, ?_⟩
  · rw [Int.sub_eq_add_neg, BitVec.ofInt_add, BitVec.ofInt_neg, BitVec.ofInt_toInt, BitVec.ofInt_toInt, BitVec.sub_eq_add_neg]
  · rw [← sub16_eq_ofInt]
    exact exists_complete_storeVar_storesOnly d (sub16 a b) s

/-- Settles O13: `ofInt` carries the product of the signed operands to the product of the words. -/
theorem mulStoresLowProduct : Obligations.MulStoresLowProduct := by
  intro a b d s
  refine ⟨encodesAs_of_bundle_eq_withDest rfl (by simp [Config.maxOps]), ?_, ?_⟩
  · rw [BitVec.ofInt_mul, BitVec.ofInt_toInt, BitVec.ofInt_toInt]
  · rw [← mul16_eq_ofInt]
    exact exists_complete_storeVar_storesOnly d (mul16 a b) s

/-- Settles O14: by the answer of the SDE, which is none for a zero divisor alone. -/
theorem divStoresTruncatingQuotient : Obligations.DivStoresTruncatingQuotient := by
  intro a b d s
  refine ⟨encodesAs_of_bundle_eq_withDest rfl (by simp [Config.maxOps]), fun hb => ?_, fun hb => ?_⟩
  · exact exists_storeUnit_storesOnly_of_eq_some d s (sdeUnit_eq_ofInt_tdiv a hb)
  · exact storeUnit_eq_divideByZero_of_eq_none d s ((sdeUnit_eq_none_iff a b).mpr hb)

/-- Settles O15: by the answer of the MT, which is none for a zero divisor alone; the identity is the library's. -/
theorem modStoresDividendSignedRemainder : Obligations.ModStoresDividendSignedRemainder := by
  intro a b d s
  refine ⟨encodesAs_of_bundle_eq_withDest rfl (by simp [Config.maxOps]), fun hb => ⟨?_, ?_, ?_⟩, fun hb => ?_⟩
  · exact exists_storeUnit_storesOnly_of_eq_some d s (mtUnit_eq_ofInt_tmod a hb)
  · exact toInt_ofInt_tmod a hb
  · exact (Int.mul_tdiv_add_tmod a.toInt b.toInt).symm
  · exact storeUnit_eq_divideByZero_of_eq_none d s ((mtUnit_eq_none_iff a b).mpr hb)

end Sys2Proof.Machine
end

section
/-!
Bitwise logic on raw operands (spec 44_logic R93 to R95): the complement of R62 by its value and as Lean's own, and the obligations
assembled from them.
-/

namespace Sys2Proof.Machine

section
/-! The one's complement (R62). Its bits and its involution are the library's for `~~~`. -/

variable (a : Word16)

theorem toNat_not16 : (not16 a).toNat = 65535 - a.toNat := by
  rw [not16, BitVec.toNat_ofNat]
  exact Nat.mod_eq_of_lt (by omega)

theorem not16_eq_not : not16 a = ~~~a := by
  apply BitVec.eq_of_toNat_eq
  rw [toNat_not16, BitVec.toNat_not]

/-- Complementing maps each half of the raw range onto the other, so the sign changes with the value (R51, R62). -/
theorem signed_not16 : signed (not16 a) = -signed a - 1 := by
  have ha := a.isLt
  rw [signed_eq_toInt, signed_eq_toInt, BitVec.toInt_eq_toNat_cond, BitVec.toInt_eq_toNat_cond, toNat_not16]
  split <;> split <;> omega

end

/-- Settles O16: the unit's complement is Lean's `~~~`, whose bits the library knows. -/
theorem notStoresComplement : Obligations.NotStoresComplement := by
  intro a d s
  refine ⟨encodesAs_of_bundle_eq_withDest rfl (by simp [Config.maxOps]), toNat_not16 a, ?_, ?_, signed_not16 a, ?_⟩
  · intro k hk
    rw [not16_eq_not, BitVec.getLsbD_not, decide_eq_true hk, Bool.true_and]
  · rw [not16_eq_not, not16_eq_not, BitVec.not_not]
  · rw [← not16_eq_not]
    exact exists_complete_storeVar_storesOnly d (not16 a) s

/-- Settles O17: the units' results are Lean's `|||` and `&&&` by definition, and each step is a store. -/
theorem orAndStoreBitwiseResults : Obligations.OrAndStoreBitwiseResults := by
  intro a b d s
  refine ⟨⟨encodesAs_of_bundle_eq_withDest rfl (by simp [Config.maxOps]), ?_⟩,
    encodesAs_of_bundle_eq_withDest rfl (by simp [Config.maxOps]), ?_⟩
  · exact exists_complete_storeVar_storesOnly d (or16 a b) s
  · exact exists_complete_storeVar_storesOnly d (and16 a b) s

end Sys2Proof.Machine
end

section
/-!
Stores (spec 45_store R97, R98): a write to the image as a completed step, the byte store inside and outside the image, and the
obligations assembled from them.
-/

namespace Sys2Proof.Machine

/-- A step that replaces the image completes, and writes only the bytes at which the new image differs (R22, R23, R102). -/
theorem exists_complete_setMem_writesOnly {a : Int} {bytes : List Byte} {s : State} {mem : Memory}
    (hwritten : ∀ k : Nat, ∀ h : k < bytes.length, Memory.read mem (a.toNat + k) = bytes[k])
    (hothers : ∀ x : Nat, ((x : Int) < a ∨ a + (bytes.length : Int) ≤ (x : Int)) →
      Memory.read mem x = Memory.read s.mem x) :
    ∃ t, complete { s with mem := mem } = .next t ∧ WritesOnly a bytes s t :=
  ⟨{ s with mem := mem, status := .ok }, rfl, {
    written := hwritten
    others := hothers
    memSize := rfl
    vars := rfl
    pc := rfl
    out := rfl
    status := rfl
    unimplemented := rfl
    fault := rfl
    inbox := rfl
    readerRows := rfl }⟩

section
/-! The byte write as the end of a step, by where its address lies (R21, R22, R98). -/

variable {a : Int} {s : State} (v : Word16)

theorem exists_settle_writeByte_writesOnly (hlo : 0 ≤ a) (hhi : a ≤ (s.memSize : Int) - 1) :
    ∃ t, settle (writeByte a v s) = .next t ∧ WritesOnly a [v.extractLsb' 0 8] s t := by
  obtain ⟨-, hwrite⟩ | ⟨houtside, -⟩ := writeByte_cases a v s
  · rw [hwrite]
    apply exists_complete_setMem_writesOnly
    · intro k hk
      obtain rfl : k = 0 := Nat.lt_one_iff.mp hk
      exact Memory.read_write_same s.mem a.toNat (v.extractLsb' 0 8)
    · intro x hx
      rw [List.length_singleton] at hx
      have hne : x ≠ a.toNat := by omega
      exact Memory.read_write_other s.mem (v.extractLsb' 0 8) hne
  · rw [inBounds_false_iff] at houtside
    omega

theorem settle_writeByte_eq_outOfBounds (houtside : a < 0 ∨ a > (s.memSize : Int) - 1) :
    settle (writeByte a v s) = .fault (.outOfBounds a) := by
  obtain ⟨hfails, -⟩ := accessFailsIffOutsideImage a v s
  exact (settle_fault_iff _ _).mpr (hfails.mpr houtside)

end

/-- The address of `STOREB` in Lean's own two's complement (R27). -/
theorem byteAddress_eq_toInt (base offset : Word16) : byteAddress base offset = (base.toNat : Int) + offset.toInt := by
  rw [byteAddress, signed_eq_toInt]

/-- Settles O18: two operands and no destination, and a store into the variable that the first operand names. -/
theorem storeWritesNamedVariable : Obligations.StoreWritesNamedVariable := by
  intro v x s
  exact ⟨encodesAs_of_bundle_eq_opsBundle rfl (by simp [Config.maxOps]), exists_complete_storeVar_storesOnly v x s⟩

/-- Settles O19: by where the address lies, which decides whether the image takes the byte. -/
theorem storebWritesOneByte : Obligations.StorebWritesOneByte := by
  intro base offset v s
  exact ⟨encodesAs_of_bundle_eq_opsBundle rfl (by simp [Config.maxOps]), byteAddress_eq_toInt base offset,
    exists_settle_writeByte_writesOnly v, settle_writeByte_eq_outOfBounds v⟩

end Sys2Proof.Machine
end

section
/-!
Decoding and encoding (spec 30_encoding R37 to R44, R49): the canonical form of a bundle, the instruction read from a bundle and the
bundle of an instruction as inverse to each other up to it, and the obligations assembled from them.
-/

namespace Sys2Proof

/-- A value of `w` bits as a literal: the way to case on a tag or on an operand count. -/
theorem exists_eq_ofNat {w : Nat} (v : BitVec w) : ∃ k < 2 ^ w, v.toNat = k ∧ v = BitVec.ofNat w k :=
  ⟨v.toNat, v.isLt, rfl, by rw [BitVec.ofNat_toNat, BitVec.setWidth_eq]⟩

/-! ## The canonical form -/

theorem presentSlot_of_absent {nops : BitVec 3} {i : Nat} (v : Word16) (habsent : nops.toNat ≤ i) : presentSlot nops i v = 0 :=
  if_neg (Nat.not_lt.mpr habsent)

theorem slotCanonical_iff_presentSlot_eq (nops : BitVec 3) (i : Nat) (v : Word16) :
    slotCanonical nops i v = true ↔ presentSlot nops i v = v := by
  by_cases hpresent : i < nops.toNat
  · simp [slotCanonical, presentSlot, hpresent]
  · simp [slotCanonical, presentSlot, hpresent, eq_comm (a := v)]

theorem slotCanonical_presentSlot (nops : BitVec 3) (i : Nat) (v : Word16) :
    slotCanonical nops i (presentSlot nops i v) = true := by
  rw [slotCanonical_iff_presentSlot_eq, presentSlot, presentSlot]
  split <;> rfl

/-- The bundle with every field that is not present set to zero (R49): the encoder's bundle of the fields as the decoder cuts
them. -/
def Bundle.canonicalForm (b : Bundle) : Bundle := unreadBundle b.tag b.unread

/-- Zeroing the absent fields leaves what `WF` reads as it was (R42). -/
theorem check_canonicalForm (b : Bundle) : b.canonicalForm.check = b.check := by
  obtain ⟨_, _, _, _, _, _, br, _, _, st, _⟩ := b
  cases br <;> cases st <;> rfl

/-- The canonical bundles are those that are their own canonical form. -/
theorem canonical_iff_canonicalForm_eq (b : Bundle) : b.canonical = true ↔ b.canonicalForm = b := by
  obtain ⟨_, nops, _, _, _, _, br, pol, _, st, _⟩ := b
  cases br <;> cases st <;>
    simp [Bundle.canonical, Bundle.canonicalForm, unreadBundle, Bundle.unread, Bundle.branch, slotCanonical_iff_presentSlot_eq,
      and_assoc, eq_comm (a := 0#16)]

/-- Unread fields are canonical as the decoder cuts them (R49). -/
theorem unread_canonical (b : Bundle) : b.unread.canonical = true := by
  simp [Unread.canonical, Bundle.unread, slotCanonical_presentSlot]

/-- Canonical unread fields are read back from their bundle (R41, R49). -/
theorem unread_unreadBundle (tag : BitVec 5) {x : Unread} (hx : x.canonical = true) : (unreadBundle tag x).unread = x := by
  obtain ⟨nops, _, _, _, _, br, dest⟩ := x
  simp only [Unread.canonical, Bool.and_eq_true, slotCanonical_iff_presentSlot_eq] at hx
  obtain ⟨⟨⟨h0, h1⟩, h2⟩, h3⟩ := hx
  cases br <;> cases dest <;> simp [Bundle.unread, unreadBundle, Bundle.branch, h0, h1, h2, h3]

/-! ## The instruction read from a bundle -/

section

variable {b : Bundle} (text : Text)

/-- `JE` reads at most three comparison operands, and unread fields are cut to the present ones. -/
theorem toInstr_wf (b : Bundle) : (b.toInstr text).wf = true := by
  unfold Bundle.toInstr
  split
  all_goals simp [Instr.wf, Bundle.comparands, unread_canonical]

/-- Only `PRINT` reads the sideband (R40). -/
theorem toInstr_text_congr (other : Text) (htag : b.tag ≠ 5) : b.toInstr other = b.toInstr text := by
  unfold Bundle.toInstr
  split
  case h_6 hprint => exact absurd (BitVec.eq_of_toNat_eq hprint) htag
  all_goals rfl

/-- The tags that `WF` asks nothing of (R42, R44): every field is carried, and none is read. -/
theorem toInstr_of_unread_tag (htag : b.tag.toNat = 4 ∨ 19 ≤ b.tag.toNat) :
    (b.toInstr text).bundle = b.canonicalForm ∧
      ∀ s, Machine.exec (b.toInstr text) s = Machine.completeUnimplemented s := by
  obtain ⟨tag, _⟩ := b
  obtain ⟨k, hlt, hk, rfl⟩ := exists_eq_ofNat tag
  rw [hk] at htag
  rcases htag with rfl | hreserved
  · exact ⟨rfl, fun _ => rfl⟩
  · interval_cases k <;> exact ⟨rfl, fun _ => rfl⟩

/-- What the decoder reads, the encoder writes back, and it leaves the absent fields zero: by the lines of `WF`, each of which
fixes the tag and, but for `JE`, the operand count. -/
theorem bundle_toInstr (hcheck : b.check = none) : (b.toInstr text).bundle = b.canonicalForm := by
  rw [check_eq_none_iff_inWfTable] at hcheck
  obtain ⟨tag, nops, _, _, _, _, br, _, _, st, _⟩ := b
  obtain ⟨k, -, hk, rfl⟩ := exists_eq_ofNat tag
  obtain ⟨n, -, hn, rfl⟩ := exists_eq_ofNat nops
  rw [hk, hn] at hcheck
  obtain ⟨rfl, rfl, rfl, rfl⟩ | ⟨rfl, hlo, hhi, rfl, rfl⟩ | ⟨rfl | rfl, rfl, rfl, rfl⟩ | hunread |
    ⟨rfl, rfl, rfl, rfl⟩ | ⟨rfl | rfl, rfl, rfl, rfl⟩ | ⟨⟨hlo, hhi⟩ | rfl | rfl, rfl, rfl, rfl⟩ | ⟨rfl, rfl, rfl, rfl⟩ |
    ⟨rfl, rfl, rfl, rfl⟩ | ⟨rfl | rfl, rfl, rfl, rfl⟩ := hcheck
  -- The lines of `JE`, of `JIN` with the reserved tags, and of `ADD` to `MOD` leave a number free.
  case inr.inl => interval_cases n <;> rfl
  case inr.inr.inr.inl => exact (toInstr_of_unread_tag text (hk.symm ▸ hunread)).1
  case inr.inr.inr.inr.inr.inr.inl.inl => interval_cases k <;> rfl
  all_goals rfl

end

/-! ## The bundle of an instruction -/

/-- The family of the per-instruction laws, over all rows of the opcode table (R42, R49). -/
theorem encodesWellFormed : ∀ i : Instr, Laws.EncodesWellFormed.Statement i
  | .jump d => Laws.EncodesWellFormed.jump d
  | .je a cs br => Laws.EncodesWellFormed.je a cs br
  | .jg a b br => Laws.EncodesWellFormed.jg a b br
  | .jl a b br => Laws.EncodesWellFormed.jl a b br
  | .jin x => Laws.EncodesWellFormed.jin x
  | .print t => Laws.EncodesWellFormed.print t
  | .printAddr a => Laws.EncodesWellFormed.printAddr a
  | .printChar u => Laws.EncodesWellFormed.printChar u
  | .add a b d => Laws.EncodesWellFormed.add a b d
  | .sub a b d => Laws.EncodesWellFormed.sub a b d
  | .mul a b d => Laws.EncodesWellFormed.mul a b d
  | .div a b d => Laws.EncodesWellFormed.div a b d
  | .mod a b d => Laws.EncodesWellFormed.mod a b d
  | .not a d => Laws.EncodesWellFormed.not a d
  | .or a b d => Laws.EncodesWellFormed.or a b d
  | .and a b d => Laws.EncodesWellFormed.and a b d
  | .store v x => Laws.EncodesWellFormed.store v x
  | .storeb b o v => Laws.EncodesWellFormed.storeb b o v
  | .storew b o v => Laws.EncodesWellFormed.storew b o v
  | .reserved19 x => Laws.EncodesWellFormed.reserved19 x
  | .reserved20to23 l x => Laws.EncodesWellFormed.reserved20to23 l x
  | .reserved24to31 l x => Laws.EncodesWellFormed.reserved24to31 l x

theorem check_bundle {i : Instr} (hwf : i.wf = true) : i.bundle.check = none := by
  obtain ⟨hcheck, -⟩ := encodesWellFormed i hwf
  rwa [encode, unpack_pack] at hcheck

section
/-! The low bits of a reserved tag are the constructor's argument (R44). -/

variable (x : Unread) (text : Text)

theorem toInstr_unreadBundle_20to23 (low : BitVec 2) :
    (unreadBundle (BitVec.ofNat 5 (20 + low.toNat)) x).toInstr text =
      .reserved20to23 low (unreadBundle (BitVec.ofNat 5 (20 + low.toNat)) x).unread := by
  obtain ⟨k, hlt, -, rfl⟩ := exists_eq_ofNat low
  interval_cases k <;> rfl

theorem toInstr_unreadBundle_24to31 (low : BitVec 3) :
    (unreadBundle (BitVec.ofNat 5 (24 + low.toNat)) x).toInstr text =
      .reserved24to31 low (unreadBundle (BitVec.ofNat 5 (24 + low.toNat)) x).unread := by
  obtain ⟨k, hlt, -, rfl⟩ := exists_eq_ofNat low
  interval_cases k <;> rfl

end

/-- The fields of a well-formed instruction are read back from its bundle. -/
theorem toInstr_bundle {i : Instr} (hwf : i.wf = true) : i.bundle.toInstr i.text = i := by
  cases i with
  | je a cs br =>
    have hcount : cs.length ≤ 3 := of_decide_eq_true hwf
    match cs, hcount with
    | [], _ => rfl
    | [_], _ => rfl
    | [_, _], _ => rfl
    | [_, _, _], _ => rfl
  | jin x => exact congrArg Instr.jin (unread_unreadBundle 4 hwf)
  | reserved19 x => exact congrArg Instr.reserved19 (unread_unreadBundle 19 hwf)
  | reserved20to23 low x =>
    exact (toInstr_unreadBundle_20to23 x [] low).trans (congrArg (Instr.reserved20to23 low) (unread_unreadBundle _ hwf))
  | reserved24to31 low x =>
    exact (toInstr_unreadBundle_24to31 x [] low).trans (congrArg (Instr.reserved24to31 low) (unread_unreadBundle _ hwf))
  | _ => rfl

/-- Settles O40: the bundle of a well-formed instruction passes the check, and its fields are read back. -/
theorem decodeOfEncodeIsTheInstruction : Obligations.DecodeOfEncodeIsTheInstruction := by
  intro i hwf
  rw [encode, decode_pack, decodeBundle_ok_iff]
  exact ⟨check_bundle hwf, toInstr_bundle hwf⟩

/-! ## What the decoder reads of a word -/

theorem encode_eq_iff (i : Instr) (w : BundleWord) : encode i = w ↔ i.bundle = unpack w := by
  constructor
  · rintro rfl
    exact (unpack_pack i.bundle).symm
  · intro hbundle
    rw [encode, hbundle, pack_unpack]

/-- Settles O41: the instruction encodes to the canonical form of the word's bundle. -/
theorem encodeOfDecodeIsCanonicalWord : Obligations.EncodeOfDecodeIsCanonicalWord := by
  intro w text i hdecode
  obtain ⟨hcheck, rfl⟩ := (decode_ok_iff w text i).mp hdecode
  refine ⟨toInstr_wf text (unpack w), ?_⟩
  rw [encode_eq_iff, bundle_toInstr text hcheck, canonical_iff_canonicalForm_eq]

/-- Settles O38: the canonical form of the word's bundle keeps its tag. -/
theorem tagAloneSelectsOpcode : Obligations.TagAloneSelectsOpcode := by
  intro w text i hdecode
  obtain ⟨hcheck, rfl⟩ := (decode_ok_iff w text i).mp hdecode
  rw [bundle_toInstr text hcheck]
  rfl

/-- The same instruction is read from the canonical form: it is the bundle of that instruction, which the decoder reads back. -/
theorem toInstr_canonicalForm {b : Bundle} (text : Text) (hcheck : b.check = none) :
    b.canonicalForm.toInstr text = b.toInstr text := by
  have hread := toInstr_bundle (toInstr_wf text b)
  rw [bundle_toInstr text hcheck] at hread
  by_cases htag : b.tag = 5
  · have htext : (b.toInstr text).text = text := by simp [Bundle.toInstr, htag, Instr.text]
    rwa [htext] at hread
  · exact (toInstr_text_congr (b := b.canonicalForm) _ text htag).trans hread

theorem decodeBundle_canonicalForm (b : Bundle) (text : Text) : decodeBundle b.canonicalForm text = decodeBundle b text := by
  rw [decodeBundle, decodeBundle, check_canonicalForm]
  split
  case h_1 => rfl
  case h_2 hcheck => rw [toInstr_canonicalForm text hcheck]

/-- The decoder reads the present fields alone (R37 to R39). -/
theorem decode_pack_congr {b c : Bundle} (h : b.canonicalForm = c.canonicalForm) (text : Text) :
    decode (pack b) text = decode (pack c) text := by
  rw [decode_pack, decode_pack, ← decodeBundle_canonicalForm, h, decodeBundle_canonicalForm]

theorem decode_text_congr {b : Bundle} (text other : Text) (htag : b.tag ≠ 5) : decode (pack b) other = decode (pack b) text := by
  rw [decode_pack, decode_pack, decodeBundle, decodeBundle, toInstr_text_congr text other htag]

/-- Settles O39: an absent field does not occur in the canonical form, and the sideband is read by `PRINT` alone. -/
theorem absentFieldsAreNotRead : Obligations.AbsentFieldsAreNotRead := by
  intro b text other x p
  refine ⟨fun h => decode_pack_congr ?_ text, fun h => decode_pack_congr ?_ text, fun h => decode_pack_congr ?_ text,
    fun h => decode_pack_congr ?_ text, fun h => decode_pack_congr ?_ text, fun h => decode_pack_congr ?_ text,
    decode_text_congr text other⟩
  case refine_5 => simp [Bundle.canonicalForm, Bundle.unread, h]
  case refine_6 => simp [Bundle.canonicalForm, Bundle.unread, Bundle.branch, h]
  all_goals simp [Bundle.canonicalForm, Bundle.unread, Bundle.branch, presentSlot_of_absent _ h]

/-- Settles O7: these tags stand in the line of `WF` that asks nothing, and no field of theirs is read. -/
theorem reservedWordsNeverTrap : Obligations.ReservedWordsNeverTrap := by
  intro w text s htag
  have hcheck : (unpack w).check = none := (check_eq_none_iff_inWfTable (unpack w)).mpr (.inr (.inr (.inr (.inl htag))))
  obtain ⟨-, hexec⟩ := toInstr_of_unread_tag (b := unpack w) text htag
  exact ⟨(unpack w).toInstr text, (decode_ok_iff w text _).mpr ⟨hcheck, rfl⟩, hexec s⟩

/-- Settles O5: no field is read. -/
theorem jinOnlyReportsUnimplemented : Obligations.JinOnlyReportsUnimplemented :=
  fun _ _ => ⟨rfl, rfl⟩

/-- Settles O6: no field is read. -/
theorem reservedOnlyReportUnimplemented : Obligations.ReservedOnlyReportUnimplemented :=
  fun _ _ _ _ => ⟨rfl, rfl, rfl⟩

/-- Settles O42: the decoder runs on each word. -/
theorem printedWordsDecode : Obligations.PrintedWordsDecode :=
  ⟨by decide, by decide, by decide, by decide, by decide, by decide, by decide⟩

end Sys2Proof
end

section
/-!
The invariant (spec 10_state R14, R18, 20_memory R20, 60_exceptions R104, R106): the fetch and the instruction keep it, every
admitted launch and reset meet it, and the obligations assembled from them.
-/

namespace Sys2Proof.Machine

/-- The fetch advances `pc` to the end of the image at most, and touches no other part of the invariant (R12, R118). -/
theorem inv_advance {s : State} {n : Nat} (rest : List Transaction) (hinv : Inv s)
    (hinside : inBounds s.memSize s.pc (max 1 n) = true) :
    Inv { s with pc := s.pc + (n : Int), inbox := rest } ∧ PcInRange { s with pc := s.pc + (n : Int), inbox := rest } := by
  rw [inBounds_iff] at hinside
  have hrange : 0 ≤ s.pc + (n : Int) ∧ s.pc + (n : Int) ≤ (s.memSize : Int) := by omega
  exact ⟨{ hinv with pcRange := ⟨by dsimp only; omega, by dsimp only; omega⟩ }, hrange⟩

/-- An instruction keeps the invariant, by what it can have done: a branch reaches at most 32770 below and 32765 above the image,
a write to the image or to a variable keeps the canonical form, and a status is `OK` or comes with the mark. -/
theorem exec_next_inv {i : Instr} {s t : State} (hinv : Inv s) (hpc : PcInRange s) (h : exec i s = .next t) : Inv t := by
  obtain ⟨hlo, hhi⟩ := hpc
  obtain ⟨-, p, hplo, hphi, rfl⟩ | ⟨-, d, v, rfl⟩ | ⟨-, x, rfl⟩ | ⟨-, a, b, ha, rfl⟩ | ⟨-, a, b, c, ha, rfl⟩ | ⟨-, rfl⟩ :=
    exec_next_cases h
  · exact { hinv with
      pcRange := ⟨by dsimp only; omega, by dsimp only; omega⟩
      statusNotFatal := rfl
      marked := nofun }
  · exact { hinv with
      varsForm := storeVar_form hinv.varsForm
      statusNotFatal := rfl
      marked := nofun }
  · exact { hinv with
      statusNotFatal := rfl
      marked := nofun }
  · exact { hinv with
      memory := Memory.write_wf b hinv.memory ha
      statusNotFatal := rfl
      marked := nofun }
  · exact { hinv with
      memory := Memory.write_wf c (Memory.write_wf b hinv.memory (Nat.lt_of_succ_lt ha)) ha
      statusNotFatal := rfl
      marked := nofun }
  · exact { hinv with
      statusNotFatal := rfl
      marked := fun _ => rfl }

/-- Settles O60: the fetch keeps the invariant and leaves `pc` inside the image, and from there the instruction keeps it. -/
theorem everyStepKeepsTheInvariant : Obligations.EveryStepKeepsTheInvariant := by
  intro s t hinv hstep
  obtain ⟨x, rest, i, -, -, hinside, -, hexec⟩ := step_next_cases hstep
  obtain ⟨hinvFetched, hpcFetched⟩ := inv_advance rest hinv hinside
  exact exec_next_inv hinvFetched hpcFetched hexec

/-- Settles O59: the image is loaded in canonical form, and the other parts are the launch's own values. -/
theorem launchMeetsTheInvariant : Obligations.LaunchMeetsTheInvariant := by
  rintro image pcInit rows ⟨hpos, hmax, hlo, hhi⟩
  exact {
    size := ⟨hpos, hmax⟩
    memory := Memory.ofImage_wf image
    varsForm := ⟨List.Pairwise.nil, nofun⟩
    pcRange := ⟨by dsimp only [State.launch]; omega, by dsimp only [State.launch]; omega⟩
    statusNotFatal := rfl
    noFault := rfl
    marked := nofun }

/-- Settles O56: the image is read back byte for byte, and no variable is listed. -/
theorem launchLoadsTheImage : Obligations.LaunchLoadsTheImage := by
  intro image pcInit rows
  refine ⟨rfl, fun k hk => ?_, Memory.image_ofImage image, rfl, rfl, rfl, rfl, rfl, fun _ => rfl⟩
  obtain ⟨-, hread⟩ | ⟨houtside, -⟩ := readByte_cases (k : Int) (State.launch image pcInit rows)
  · rw [hread, Int.toNat_natCast]
    exact congrArg Except.ok ((Memory.read_ofImage image k).trans (List.getD_eq_getElem image _ hk))
  · rw [inBounds_false_iff] at houtside
    dsimp only [State.launch] at houtside
    omega

/-- Reset is the launch of an image of zeros, which lists no byte (logs 4 to 6). -/
theorem reset_eq_launch : State.reset = State.launch (List.replicate Config.resetMemSize 0) Config.resetPc [] := by
  have hmem : Memory.ofImage (List.replicate Config.resetMemSize 0) = [] := Memory.ofImageFrom_zeros 0 Config.resetMemSize
  rw [State.launch, hmem, List.length_replicate]
  rfl

theorem reset_launchOk : LaunchOk (List.replicate Config.resetMemSize 0) Config.resetPc := by
  rw [LaunchOk, List.length_replicate]
  exact ⟨by decide, by decide, by decide, by decide⟩

/-- Settles O58: reset is an admitted launch, and every one meets the invariant. -/
theorem resetMeetsTheInvariant : Obligations.ResetMeetsTheInvariant :=
  ⟨reset_eq_launch, reset_launchOk, reset_eq_launch ▸ launchMeetsTheInvariant _ _ [] reset_launchOk⟩

/-- Settles O57: the values that reset gives these fields. -/
theorem resetRecordsNoFaultAndNoOutput : Obligations.ResetRecordsNoFaultAndNoOutput :=
  ⟨rfl, rfl, rfl, rfl⟩

end Sys2Proof.Machine
end

section
/-!
The step and the end of a run (spec 10_state R12, 40_numeric_units R64, 60_exceptions R102 to R104, 70_reset_and_hazards R123, U1,
U6, U10): what a step answers by what its fetch and its decoder answer, and the obligations assembled from them.
-/

namespace Sys2Proof.Machine

section
/-! A run that has not faulted, with a transaction presented. -/

variable {s : State} {x : Transaction} {rest : List Transaction}

theorem fetch_of_inside (hrun : s.fault = none) (hinbox : s.inbox = x :: rest) (hlo : 0 ≤ s.pc)
    (hhi : s.pc + (max 1 x.length : Nat) ≤ (s.memSize : Int)) :
    fetch s = .next (x, { s with pc := s.pc + (x.length : Int), inbox := rest }) :=
  (fetch_next_iff s x _).mpr ⟨hrun, rest, hinbox, (inBounds_iff _ _ _).mpr ⟨hlo, hhi⟩, rfl⟩

theorem fetch_of_outside (hrun : s.fault = none) (hinbox : s.inbox = x :: rest)
    (houtside : s.pc < 0 ∨ (s.memSize : Int) < s.pc + (max 1 x.length : Nat)) :
    fetch s = .fault (.fetchOutOfBounds s.pc) :=
  (fetch_fault_iff s _).mpr (.inr ⟨hrun, rfl, x, rest, hinbox, (inBounds_false_iff _ _ _).mpr houtside⟩)

end

section
/-! A step by what its fetch answers. -/

variable {s u : State} {x : Transaction} {f : Fault}

theorem step_of_decode_ok {i : Instr} (hfetch : fetch s = .next (x, u)) (hdecode : decode x.bundle x.text = .ok i) :
    step s = exec i u := by
  simp only [step, hfetch, hdecode]

theorem step_of_decode_error {e : Malformed} (hfetch : fetch s = .next (x, u)) (hdecode : decode x.bundle x.text = .error e) :
    step s = .refused (.malformed e) := by
  simp only [step, hfetch, hdecode]

theorem step_of_fetch_fault (hfetch : fetch s = .fault f) : step s = .fault f := by
  simp only [step, hfetch]

theorem step_of_nothing_presented (hrun : s.fault = none) (hinbox : s.inbox = []) : step s = .refused .noTransaction := by
  simp only [step, fetch, hrun, hinbox]

end

section
/-! The state that a step leaves, by what the step and its fetch answer. -/

variable {s u : State} {x : Transaction} {f : Fault}

theorem stepEnd_of_next {t : State} (hstep : step s = .next t) : stepEnd s = some t := by
  simp only [stepEnd, hstep]

theorem stepEnd_of_refused {r : Refusal} (hstep : step s = .refused r) : stepEnd s = none := by
  simp only [stepEnd, hstep]

theorem stepEnd_of_exec_fault (hfetch : fetch s = .next (x, u)) (hstep : step s = .fault f) : stepEnd s = some (faulted f u) := by
  simp only [stepEnd, hstep, hfetch]

theorem stepEnd_of_fetch_fault (hfetch : fetch s = .fault f) : stepEnd s = some (recordFault f s) := by
  simp only [stepEnd, step_of_fetch_fault hfetch, hfetch]

end

/-- Settles O43: the fetch succeeds, so the step is the instruction's on the fetched state. -/
theorem stepRunsTheDecodedInstruction : Obligations.StepRunsTheDecodedInstruction := by
  intro s x rest i hrun hinbox hlo hhi hdecode
  have hfetch := fetch_of_inside hrun hinbox hlo hhi
  exact ⟨step_of_decode_ok hfetch hdecode, fun _ => stepEnd_of_next, fun _ => stepEnd_of_exec_fault hfetch⟩

/-- Settles O44: the fetch faults, and only the fault is recorded. -/
theorem fetchOutsideImageFaults : Obligations.FetchOutsideImageFaults := by
  intro s x rest hrun hinbox houtside
  have hfetch := fetch_of_outside hrun hinbox houtside
  exact ⟨step_of_fetch_fault hfetch, stepEnd_of_fetch_fault hfetch⟩

/-- Settles O45: the fetch succeeds, so the decoder's reason is the step's. -/
theorem malformedBundlesAreRefused : Obligations.MalformedBundlesAreRefused := by
  intro s x rest e hrun hinbox hlo hhi hdecode
  have hstep := step_of_decode_error (fetch_of_inside hrun hinbox hlo hhi) hdecode
  exact ⟨hstep, stepEnd_of_refused hstep⟩

/-! ## The end of a run -/

theorem fetch_of_fault {s : State} {f : Fault} (hfault : s.fault = some f) : fetch s = .fault f :=
  (fetch_fault_iff s f).mpr (.inl hfault)

theorem runEnd_succ {s u : State} (k : Nat) (hend : stepEnd s = some u) : runEnd (k + 1) s = runEnd k u := by
  rw [runEnd, hend, Option.bind_some]

/-- A faulted run stays where it is: each further step records the recorded fault again (R104, U10). -/
theorem runEnd_of_fault {s : State} {f : Fault} (hfault : s.fault = some f) (k : Nat) : runEnd k s = some s := by
  induction k with
  | zero => rfl
  | succ k ih =>
    have hend := stepEnd_of_fetch_fault (fetch_of_fault hfault)
    rw [recordFault_same hfault] at hend
    rw [runEnd_succ k hend, ih]

/-- The state that a faulting step leaves: the fault recorded, and nothing written (R103, R104). -/
theorem stepEnd_of_fault {s : State} {f : Fault} (hstep : step s = .fault f) :
    ∃ u, stepEnd s = some u ∧ u.fault = some f ∧ u.mem = s.mem ∧ u.vars = s.vars ∧ u.out = s.out := by
  obtain hfetch | ⟨x, u, i, hfetch, -, -⟩ := step_fault_cases hstep
  · exact ⟨recordFault f s, stepEnd_of_fetch_fault hfetch, rfl, rfl, rfl, rfl⟩
  · obtain ⟨-, rest, -, -, rfl⟩ := (fetch_next_iff s x u).mp hfetch
    exact ⟨_, stepEnd_of_exec_fault hfetch hstep, rfl, rfl, rfl, rfl⟩

/-- Settles O46: the state that a faulting step leaves has a recorded fault, and such a run stays where it is. -/
theorem runEndsAtAFaultOrWithoutTransaction : Obligations.RunEndsAtAFaultOrWithoutTransaction := by
  refine ⟨fun s f hfault => ?_, fun s hrun hinbox => ?_, fun s f hstep => ?_⟩
  · exact ⟨step_of_fetch_fault (fetch_of_fault hfault), runEnd_of_fault hfault⟩
  · have hstep := step_of_nothing_presented hrun hinbox
    exact ⟨hstep, stepEnd_of_refused hstep⟩
  · obtain ⟨u, hend, hfault, hmem, hvars, hout⟩ := stepEnd_of_fault hstep
    exact ⟨u, hend, hfault, hmem, hvars, hout, fun k => (runEnd_succ k hend).trans (runEnd_of_fault hfault k)⟩

/-! ## What a completing step keeps -/

/-- No instruction touches `MEM_SIZE`, the queue or the reader's listed answers (R36, R117). -/
theorem exec_next_config {i : Instr} {s t : State} (h : exec i s = .next t) :
    t.memSize = s.memSize ∧ t.readerRows = s.readerRows ∧ t.inbox = s.inbox := by
  obtain ⟨-, p, -, -, rfl⟩ | ⟨-, d, v, rfl⟩ | ⟨-, x, rfl⟩ | ⟨-, a, b, -, rfl⟩ | ⟨-, a, b, c, -, rfl⟩ | ⟨-, rfl⟩ := exec_next_cases h
  all_goals exact ⟨rfl, rfl, rfl⟩

/-- An instruction sets the mark where it ends with `UNIMPLEMENTED`, and else leaves it (R106). -/
theorem exec_next_unimplemented {i : Instr} {s t : State} (h : exec i s = .next t) :
    (t.status = .ok ∧ t.unimplemented = s.unimplemented) ∨ (t.status = .unimplemented ∧ t.unimplemented = true) := by
  obtain ⟨-, p, -, -, rfl⟩ | ⟨-, d, v, rfl⟩ | ⟨-, x, rfl⟩ | ⟨-, a, b, -, rfl⟩ | ⟨-, a, b, c, -, rfl⟩ | ⟨-, rfl⟩ := exec_next_cases h
  case inr.inr.inr.inr.inr => exact .inr ⟨rfl, rfl⟩
  all_goals exact .inl ⟨rfl, rfl⟩

/-- Settles O52: the fetch takes one transaction, and the instruction touches none of this. -/
theorem stepKeepsConfigurationAndConsumesOne : Obligations.StepKeepsConfigurationAndConsumesOne := by
  intro s t hstep
  obtain ⟨x, rest, i, hrun, hinbox, -, -, hexec⟩ := step_next_cases hstep
  obtain ⟨hmemSize, hrows, hrest⟩ := exec_next_config hexec
  refine ⟨hmemSize, hrows, hrun, (exec_next_fault hexec).trans hrun, x, ?_⟩
  rw [hinbox, hrest]

/-- Settles O51: by the status that the instruction ends with. -/
theorem runMarkRecordsUnimplemented : Obligations.RunMarkRecordsUnimplemented := by
  intro s t hstep
  obtain ⟨x, rest, i, -, -, -, -, hexec⟩ := step_next_cases hstep
  obtain ⟨hstatus, hmark⟩ | ⟨hstatus, hmark⟩ := exec_next_unimplemented hexec
  · simp [hstatus, hmark]
  · simp [hstatus, hmark]

/-- Settles O53: by the status, and by the fault. -/
theorem statusCodesAreAsListed : Obligations.StatusCodesAreAsListed := by
  refine ⟨rfl, rfl, rfl, rfl, fun x => ?_, fun f => ?_⟩
  · cases x <;> decide
  · cases f <;> rfl

end Sys2Proof.Machine
end

section
/-!
The numeric units (spec 40_numeric_units R52 to R55, R57, R58, R61, R63, R69): truncation, the TCA on raw operands, the quotient
that does not fit, the magnitude datapath, and the obligations assembled from them.
-/

namespace Sys2Proof.Machine

/-! ## Truncation -/

theorem toNat_trunc16 (x : Int) : ((trunc16 x).toNat : Int) = x % 65536 := by
  rw [trunc16, BitVec.toNat_ofNat]
  omega

/-- What is stored raw is read back raw (R54). -/
theorem trunc16_signed (v : Word16) : trunc16 (signed v) = v := by
  rw [trunc16_eq_ofInt, signed_eq_toInt, BitVec.ofInt_toInt]

theorem trunc16_eq_iff (x y : Int) : trunc16 x = trunc16 y ↔ (65536 : Int) ∣ x - y := by
  rw [← BitVec.toNat_inj, ← Int.natCast_inj, toNat_trunc16, toNat_trunc16]
  omega

/-- Settles O22: a truncated value is determined by its remainder, and what is in the signed range is read back. -/
theorem truncationRoundTrips : Obligations.TruncationRoundTrips := by
  refine ⟨toNat_trunc16, fun _ => rfl, fun v => ?_, trunc16_signed, fun _ => signed_trunc16, trunc16_eq_iff⟩
  rw [unsigned, trunc16_signed]

/-! ## The two_complement_alu on raw operands -/

section

variable (a b : Word16)

theorem add16_eq_add : add16 a b = a + b := by
  rw [add16_eq_ofInt, BitVec.ofInt_add, BitVec.ofInt_toInt, BitVec.ofInt_toInt]

theorem sub16_eq_sub : sub16 a b = a - b := by
  rw [sub16_eq_ofInt, Int.sub_eq_add_neg, BitVec.ofInt_add, BitVec.ofInt_neg, BitVec.ofInt_toInt, BitVec.ofInt_toInt,
    BitVec.sub_eq_add_neg]

theorem mul16_eq_mul : mul16 a b = a * b := by
  rw [mul16_eq_ofInt, BitVec.ofInt_mul, BitVec.ofInt_toInt, BitVec.ofInt_toInt]

theorem toNat_sub16 : ((sub16 a b).toNat : Int) = ((a.toNat : Int) - (b.toNat : Int)) % 65536 := by
  have hb := b.isLt
  rw [sub16_eq_sub, BitVec.toNat_sub]
  omega

/-- The extremes of a product are at the ends of the signed range (R55). -/
theorem signed_mul_bounds : -1073709056 ≤ signed a * signed b ∧ signed a * signed b ≤ 1073741824 := by
  obtain ⟨halo, hahi⟩ := signed_bounds a
  obtain ⟨hblo, hbhi⟩ := signed_bounds b
  constructor
  · nlinarith
  · nlinarith

end

/-- Settles O23: the units truncate by definition, and on raw operands they are the operations of the words. -/
theorem aluAgreesWithModularArithmetic : Obligations.AluAgreesWithModularArithmetic := by
  intro a b
  have ha := signed_bounds a
  have hb := signed_bounds b
  refine ⟨rfl, rfl, rfl, by omega, by omega, signed_mul_bounds a b, ?_, toNat_sub16 a b, ?_⟩
  · rw [add16_eq_add, BitVec.toNat_add]
  · rw [mul16_eq_mul, BitVec.toNat_mul]

section
/-! The comparisons (R63). -/

variable {a b : Word16}

theorem eq16_iff : eq16 a b = true ↔ signed a = signed b :=
  decide_eq_true_iff.trans signed_injective.eq_iff.symm

theorem gt16_iff : gt16 a b = true ↔ signed b < signed a := decide_eq_true_iff

theorem lt16_iff : lt16 a b = true ↔ signed a < signed b := decide_eq_true_iff

/-- The three comparisons are those of a linear order on the signed values. -/
theorem compare_trichotomy : (eq16 a b = true ∧ gt16 a b = false ∧ lt16 a b = false) ∨
    (eq16 a b = false ∧ gt16 a b = true ∧ lt16 a b = false) ∨ (eq16 a b = false ∧ gt16 a b = false ∧ lt16 a b = true) := by
  simp only [← Bool.not_eq_true, eq16_iff, gt16_iff, lt16_iff]
  omega

end

/-- Settles O24: the comparisons are the signed order's, and the logic is the library's on words. -/
theorem comparisonsAreSignedAndTrichotomous : Obligations.ComparisonsAreSignedAndTrichotomous := by
  intro a b
  exact ⟨decide_eq_true_iff, eq16_iff, gt16_iff, lt16_iff, rfl, compare_trichotomy, fun _ => BitVec.getLsbD_or,
    fun _ => BitVec.getLsbD_and⟩

/-! ## The dividing units -/

/-- The SDE answers the truncated quotient of the signed operands (R57). -/
theorem sdeUnit_eq_trunc16_tdiv (a : Word16) {b : Word16} (hb : b ≠ 0) :
    sdeUnit a b = some (trunc16 ((signed a).tdiv (signed b))) := by
  rw [sdeUnit, quotient_eq_tdiv (mt (signed_eq_zero_iff b).mp hb), Option.map_some]

/-- A quotient of signed values is in the signed range unless it is `-32768 / -1` (R58): its magnitude is at most the dividend's,
and for the dividend `-32768` it is not positive or at most half of that. -/
theorem tdiv_bounds {x y : Int} (hlo : -32768 ≤ x) (hhi : x ≤ 32767) (hne : ¬ (x = -32768 ∧ y = -1)) :
    -32768 ≤ x.tdiv y ∧ x.tdiv y ≤ 32767 := by
  have habs : (x.tdiv y).natAbs = x.natAbs / y.natAbs := Int.natAbs_tdiv x y
  have hle : x.natAbs / y.natAbs ≤ x.natAbs := Nat.div_le_self _ _
  by_cases hx : x = -32768
  · obtain hy | hy : 0 ≤ y ∨ y ≤ -2 := by omega
    · have hnonpos : x.tdiv y ≤ 0 := tdiv_nonpos_of_mul_nonpos (by rw [hx]; omega)
      omega
    · have hhalf : x.natAbs / y.natAbs ≤ x.natAbs / 2 := Nat.div_le_div_left (by omega) (by decide)
      omega
  · omega

/-- Settles O26: every other quotient is in the signed range, so it is read back as it was stored. -/
theorem onlyOneQuotientOverflows : Obligations.OnlyOneQuotientOverflows := by
  intro a b
  refine ⟨(sdeUnit_eq_none_iff a 0).mpr rfl, fun hb => ⟨_, sdeUnit_eq_trunc16_tdiv a hb, ?_, fun hne => ?_⟩⟩
  · rintro ⟨rfl, rfl⟩
    decide
  · have hsigned : ¬ (signed a = -32768 ∧ signed b = -1) := fun ⟨ha, hb⟩ =>
      hne ⟨signed_injective ha, signed_injective hb⟩
    obtain ⟨halo, hahi⟩ := signed_bounds a
    obtain ⟨hlo, hhi⟩ := tdiv_bounds halo hahi hsigned
    exact signed_trunc16 hlo hhi

/-- Settles O29: the units are Lean's `tdiv` and `tmod`, whose identity the library knows. -/
theorem divisionIdentityHolds : Obligations.DivisionIdentityHolds := fun a b hb =>
  ⟨a.tdiv b, a.tmod b, quotient_eq_tdiv hb, remainder_eq_tmod hb, (Int.mul_tdiv_add_tmod a b).symm⟩

/-! ## The magnitude datapath -/

/-- A raw input is its sign bit and its magnitude (R69). -/
theorem signed_eq_magnitude (v : Word16) :
    signed v = if v.getLsbD 15 then -(magnitude v : Int) else (magnitude v : Int) := by
  have hv := v.isLt
  unfold signed magnitude
  split
  · omega
  · rfl

/-- Applying a sign to an unsigned result truncates the signed result (R69). -/
theorem withSign_eq_trunc16 (neg : Bool) (k : Nat) (hk : k ≤ 65536) :
    withSign neg k = trunc16 (if neg then -(k : Int) else (k : Int)) := by
  rw [← BitVec.toNat_inj, ← Int.natCast_inj, toNat_trunc16, withSign]
  split
  all_goals
    rw [BitVec.toNat_ofNat]
    omega

theorem magnitude_le (v : Word16) : magnitude v ≤ 65536 := by
  have hv := v.isLt
  unfold magnitude
  split <;> omega

section

variable (a b : Word16)

/-- The signs of the operands pass through the truncated division by the rules of R69. -/
theorem withSign_magnitude_div :
    withSign (Bool.xor (a.getLsbD 15) (b.getLsbD 15)) (magnitude a / magnitude b) =
      trunc16 ((signed a).tdiv (signed b)) := by
  rw [withSign_eq_trunc16 _ _ ((Nat.div_le_self _ _).trans (magnitude_le a)), signed_eq_magnitude a, signed_eq_magnitude b]
  cases a.getLsbD 15 <;> cases b.getLsbD 15 <;> simp [Int.neg_tdiv, Int.tdiv_neg]

theorem withSign_magnitude_mod :
    withSign (a.getLsbD 15) (magnitude a % magnitude b) = trunc16 ((signed a).tmod (signed b)) := by
  rw [withSign_eq_trunc16 _ _ ((Nat.mod_le _ _).trans (magnitude_le a)), signed_eq_magnitude a, signed_eq_magnitude b]
  cases a.getLsbD 15 <;> cases b.getLsbD 15 <;> simp [Int.neg_tmod, Int.tmod_neg, Int.tmod_eq_emod_of_nonneg]

end

/-- Settles O30: the datapath applies to the magnitudes' quotient and remainder the signs that Lean's `tdiv` and `tmod` have. -/
theorem magnitudeDatapathRealisesUnits : Obligations.MagnitudeDatapathRealisesUnits := by
  intro a b
  refine ⟨fun hb => if_pos hb, fun hb => ⟨_, _, if_neg hb, ?_, ?_⟩⟩
  · rw [withSign_magnitude_div, sdeUnit_eq_trunc16_tdiv a hb]
  · rw [withSign_magnitude_mod, mtUnit_eq_trunc16_tmod a hb]

end Sys2Proof.Machine
end

section
/-!
The image in words and bytes, the word store, branch targets and displacements (spec 20_memory R23, R24, R28, 45_store R99, 41_branch
R70, 70_reset_and_hazards R119), and the obligations assembled from them.
-/

namespace Sys2Proof.Machine

/-! ## Words and bytes -/

section

variable {a : Int} {s : State} (hlo : 0 ≤ a)
include hlo

theorem readByte_of_inside (hhi : a < (s.memSize : Int)) : readByte a s = .ok (Memory.read s.mem a.toNat) :=
  if_pos ((inBounds_iff _ _ _).mpr ⟨hlo, by omega⟩)

theorem readWord_of_inside (hhi : a + 1 < (s.memSize : Int)) :
    readWord a s = .ok (Memory.read s.mem a.toNat ++ Memory.read s.mem (a.toNat + 1)) :=
  if_pos ((inBounds_iff _ _ _).mpr ⟨hlo, by omega⟩)

end

/-- The image with a word written at `k`: the high byte is not the one that the low byte's write touches (R23). -/
theorem read_write_word (m : Memory) (k : Nat) (hi lo : Byte) :
    Memory.read (Memory.write (Memory.write m k hi) (k + 1) lo) k = hi ∧
      Memory.read (Memory.write (Memory.write m k hi) (k + 1) lo) (k + 1) = lo := by
  rw [Memory.read_write_other _ _ (Nat.lt_succ_self k).ne, Memory.read_write_same, Memory.read_write_same]
  exact ⟨rfl, rfl⟩

theorem writeWord_ok_reads {a : Int} {v : Word16} {s t : State} (h : writeWord a v s = .ok t) :
    readWord a t = .ok v ∧ readByte a t = .ok (v.extractLsb' 8 8) ∧ readByte (a + 1) t = .ok (v.extractLsb' 0 8) := by
  obtain ⟨hinside, hwrite⟩ | ⟨-, hwrite⟩ := writeWord_cases a v s
  · rw [inBounds_iff] at hinside
    obtain ⟨hlo, hhi⟩ := hinside
    obtain rfl := Except.ok.inj (hwrite.symm.trans h)
    obtain ⟨hhigh, hlow⟩ := read_write_word s.mem a.toNat (v.extractLsb' 8 8) (v.extractLsb' 0 8)
    have hnext : (a + 1).toNat = a.toNat + 1 := by omega
    refine ⟨?_, ?_, ?_⟩
    · rw [readWord_of_inside hlo (by dsimp only; omega), hhigh, hlow]
      exact congrArg Except.ok (BitVec.extractLsb'_append_extractLsb' (w := 8) (len := 8))
    · rw [readByte_of_inside hlo (by dsimp only; omega), hhigh]
    · rw [readByte_of_inside (by omega) (by dsimp only; omega), hnext, hlow]
  · rw [hwrite] at h
    cases h

theorem writeByte_ok_reads {a : Int} {v : Word16} {s t : State} (h : writeByte a v s = .ok t) :
    readByte a t = .ok (v.extractLsb' 0 8) ∧
      (a + 1 ≤ (s.memSize : Int) - 1 → ∃ w, readWord a t = .ok w ∧ w.extractLsb' 8 8 = v.extractLsb' 0 8) := by
  obtain ⟨hinside, hwrite⟩ | ⟨-, hwrite⟩ := writeByte_cases a v s
  · rw [inBounds_iff] at hinside
    obtain ⟨hlo, hhi⟩ := hinside
    obtain rfl := Except.ok.inj (hwrite.symm.trans h)
    refine ⟨?_, fun hword => ⟨_, readWord_of_inside hlo (by dsimp only; omega), ?_⟩⟩
    · rw [readByte_of_inside hlo (by dsimp only; omega), Memory.read_write_same]
    · rw [Memory.read_write_same]
      exact BitVec.extractLsb'_append_eq_left
  · rw [hwrite] at h
    cases h

/-- Settles O32: words and bytes are read from the image that the write left. -/
theorem mixedWidthAccessesSeePlainBytes : Obligations.MixedWidthAccessesSeePlainBytes :=
  ⟨fun _ _ _ _ => writeWord_ok_reads, fun _ _ _ _ => writeByte_ok_reads⟩

/-! ## The word store -/

section
/-! The word write as the end of a step, by where its two bytes lie (R21, R23, R99). -/

variable {a : Int} {s : State} (v : Word16)

theorem exists_settle_writeWord_writesOnly (hlo : 0 ≤ a) (hhi : a + 1 ≤ (s.memSize : Int) - 1) :
    ∃ t, settle (writeWord a v s) = .next t ∧ WritesOnly a [v.extractLsb' 8 8, v.extractLsb' 0 8] s t := by
  obtain ⟨-, hwrite⟩ | ⟨houtside, -⟩ := writeWord_cases a v s
  · rw [hwrite]
    obtain ⟨hhigh, hlow⟩ := read_write_word s.mem a.toNat (v.extractLsb' 8 8) (v.extractLsb' 0 8)
    apply exists_complete_setMem_writesOnly
    · intro k hk
      match k, hk with
      | 0, _ => exact hhigh
      | 1, _ => exact hlow
    · intro x hx
      rw [List.length_cons, List.length_singleton] at hx
      have hneLow : x ≠ a.toNat + 1 := by omega
      have hneHigh : x ≠ a.toNat := by omega
      rw [Memory.read_write_other _ _ hneLow, Memory.read_write_other _ _ hneHigh]
  · rw [inBounds_false_iff] at houtside
    omega

theorem settle_writeWord_eq_outOfBounds (houtside : a < 0 ∨ a + 1 > (s.memSize : Int) - 1) :
    settle (writeWord a v s) = .fault (.outOfBounds a) := by
  obtain ⟨-, hfails, -⟩ := accessFailsIffOutsideImage a v s
  exact (settle_fault_iff _ _).mpr (hfails.mpr houtside)

end

/-- The address of `STOREW` in Lean's own two's complement (R27). -/
theorem wordAddress_eq_toInt (base offset : Word16) :
    wordAddress base offset = (base.toNat : Int) + 2 * offset.toInt := by
  rw [wordAddress, signed_eq_toInt]

/-- Settles O20: by where the two bytes lie, which decides whether the image takes the word. -/
theorem storewWritesBigEndianWord : Obligations.StorewWritesBigEndianWord := by
  intro base offset v s
  exact ⟨encodesAs_of_bundle_eq_opsBundle rfl (by simp [Config.maxOps]), wordAddress_eq_toInt base offset,
    exists_settle_writeWord_writesOnly v, settle_writeWord_eq_outOfBounds v⟩

/-! ## Branch targets and displacements -/

/-- Settles O34: a target is near `pc`, which is inside an image that leaves room for it in 32 bits (log 30). -/
theorem branchTargetsNeverWrap : Obligations.BranchTargetsNeverWrap := by
  intro s d
  obtain ⟨hlo, hhi⟩ := branchTarget_bounds s.pc d
  refine ⟨branchTarget_eq_toInt s.pc d, hlo, hhi, ?_⟩
  rintro ⟨hpcLo, hpcHi⟩ hsize
  rw [memSizeMax_eq] at hsize
  rw [fitsPc_iff]
  omega

theorem displacementTo_eq_some_iff (target after : Int) (d : Word16) : displacementTo target after = some d ↔
    (-32768 ≤ target - after + 2 ∧ target - after + 2 ≤ 32767) ∧ trunc16 (target - after + 2) = d := by
  simp [displacementTo]

/-- Settles O35: the displacement is the truncation of a value in the signed range, which is read back. -/
theorem displacementReachesItsTarget : Obligations.DisplacementReachesItsTarget := by
  intro target after
  simp only [displacementTo_eq_some_iff]
  refine ⟨⟨fun ⟨_, hrange, _⟩ => hrange, fun hrange => ⟨_, hrange, rfl⟩⟩, ?_⟩
  rintro _ ⟨⟨hlo, hhi⟩, rfl⟩
  refine ⟨rfl, ?_⟩
  rw [branchTarget, signed_trunc16 hlo hhi]
  omega

end Sys2Proof.Machine
end

section
/-!
What an instruction can end with and what it depends on (spec 10_state R10, R13, 20_memory R33, R34, 60_exceptions R105 to R109):
where `exec` faults, which space it writes, that it reads its inputs alone, and the obligations assembled from them.
-/

namespace Sys2Proof.Machine

/-! ## Where an instruction faults -/

theorem storeUnit_fault_iff (result : Option Word16) (d : VarRef) (s : State) (f : Fault) :
    storeUnit result d s = .fault f ↔ result = none ∧ f = .divideByZero := by
  cases result with
  | none => simp [storeUnit, eq_comm (a := f)]
  | some v => simp [storeUnit]

theorem execPrintAddr_fault_iff (a : Word16) (s : State) (f : Fault) :
    execPrintAddr a s = .fault f ↔ readString (a.toNat : Int) 0 s = none ∧ f = .outOfBounds (a.toNat : Int) := by
  cases hread : readString (a.toNat : Int) 0 s with
  | none => simp [execPrintAddr_of_readString_eq_none hread, eq_comm (a := f)]
  | some answer => simp [execPrintAddr_of_readString_eq_some (len := answer.1) (units := answer.2) hread]

theorem writeByte_error_iff (a : Int) (v : Word16) (s : State) (f : Fault) :
    writeByte a v s = .error f ↔ inBounds s.memSize a 1 = false ∧ f = .outOfBounds a := by
  obtain ⟨hinside, hwrite⟩ | ⟨houtside, hwrite⟩ := writeByte_cases a v s
  · simp [hwrite, hinside]
  · simp [hwrite, houtside, eq_comm (a := f)]

theorem writeWord_error_iff (a : Int) (v : Word16) (s : State) (f : Fault) :
    writeWord a v s = .error f ↔ inBounds s.memSize a 2 = false ∧ f = .outOfBounds a := by
  obtain ⟨hinside, hwrite⟩ | ⟨houtside, hwrite⟩ := writeWord_cases a v s
  · simp [hwrite, hinside]
  · simp [hwrite, houtside, eq_comm (a := f)]

/-- Everything that makes an instruction fault (R105, R107). -/
theorem exec_fault_cases {i : Instr} {s : State} {f : Fault} (h : exec i s = .fault f) :
    (f = .divideByZero ∧ ((∃ a d, i = .div a 0 d) ∨ ∃ a d, i = .mod a 0 d)) ∨
    (∃ b o v, i = .storeb b o v ∧ inBounds s.memSize (byteAddress b o) 1 = false ∧ f = .outOfBounds (byteAddress b o)) ∨
    (∃ b o v, i = .storew b o v ∧ inBounds s.memSize (wordAddress b o) 2 = false ∧ f = .outOfBounds (wordAddress b o)) ∨
    (∃ a, i = .printAddr a ∧ readString (a.toNat : Int) 0 s = none ∧ f = .outOfBounds (a.toNat : Int)) := by
  cases i with
  | div a b d =>
    obtain ⟨hnone, rfl⟩ := (storeUnit_fault_iff _ d s f).mp h
    obtain rfl := (sdeUnit_eq_none_iff a b).mp hnone
    exact .inl ⟨rfl, .inl ⟨a, d, rfl⟩⟩
  | mod a b d =>
    obtain ⟨hnone, rfl⟩ := (storeUnit_fault_iff _ d s f).mp h
    obtain rfl := (mtUnit_eq_none_iff a b).mp hnone
    exact .inl ⟨rfl, .inr ⟨a, d, rfl⟩⟩
  | storeb b o v => exact .inr (.inl ⟨b, o, v, rfl, (writeByte_error_iff _ v s f).mp ((settle_fault_iff _ f).mp h)⟩)
  | storew b o v => exact .inr (.inr (.inl ⟨b, o, v, rfl, (writeWord_error_iff _ v s f).mp ((settle_fault_iff _ f).mp h)⟩))
  | printAddr a => exact .inr (.inr (.inr ⟨a, rfl, (execPrintAddr_fault_iff a s f).mp h⟩))
  | _ => nomatch h

theorem storeUnit_ne_refused (result : Option Word16) (d : VarRef) (s : State) (r : Refusal) :
    storeUnit result d s ≠ .refused r := by
  cases result <;> simp [storeUnit]

theorem settle_ne_refused (w : Except Fault State) (r : Refusal) : settle w ≠ .refused r := by
  cases w <;> simp [settle]

/-- No instruction is without a meaning. -/
theorem exec_ne_refused (i : Instr) (s : State) (r : Refusal) : exec i s ≠ .refused r := by
  cases i with
  | div a b d => exact storeUnit_ne_refused _ d s r
  | mod a b d => exact storeUnit_ne_refused _ d s r
  | storeb b o v => exact settle_ne_refused _ r
  | storew b o v => exact settle_ne_refused _ r
  | printAddr a =>
    show execPrintAddr a s ≠ .refused r
    unfold execPrintAddr
    split <;> simp
  | _ => nofun

/-- Settles O47: by what makes an instruction fault, and by what one that completes can have done. -/
theorem onlyTheListedStatusesOccur : Obligations.OnlyTheListedStatusesOccur := by
  intro i s
  refine ⟨fun f hfault => ?_, exec_ne_refused i s, fun t hnext => ?_⟩
  · obtain hdivisor | ⟨b, o, v, rfl, -, rfl⟩ | ⟨b, o, v, rfl, -, rfl⟩ | ⟨a, rfl, -, rfl⟩ := exec_fault_cases hfault
    · exact .inl hdivisor
    · exact .inr ⟨⟨_, rfl⟩, .inl ⟨b, o, v, rfl⟩⟩
    · exact .inr ⟨⟨_, rfl⟩, .inr (.inl ⟨b, o, v, rfl⟩)⟩
    · exact .inr ⟨⟨_, rfl⟩, .inr (.inr ⟨a, rfl⟩)⟩
  · obtain ⟨hkind, p, -, -, rfl⟩ | ⟨hkind, d, v, rfl⟩ | ⟨hkind, x, rfl⟩ | ⟨hkind, a, b, -, rfl⟩ | ⟨hkind, a, b, c, -, rfl⟩ |
      ⟨hkind, rfl⟩ := exec_next_cases hnext
    case inr.inr.inr.inr.inr => exact .inl ⟨rfl, hkind⟩
    all_goals
      refine .inr ⟨rfl, fun x hi => ?_, fun x hi => ?_, fun l x hi => ?_, fun l x hi => ?_⟩
      all_goals simp [hi] at hkind

/-- Settles O55: it does not fault, as what makes an instruction fault is excluded, and it is never refused. -/
theorem stepCompletesUnlessTheSpecFaults : Obligations.StepCompletesUnlessTheSpecFaults := by
  intro s x rest i hrun hinbox hlo hhi hdecode hdivisor hbyte hword hstring
  rw [step_of_decode_ok (fetch_of_inside hrun hinbox hlo hhi) hdecode]
  cases hexec : exec i { s with pc := s.pc + (x.length : Int), inbox := rest } with
  | next t => exact ⟨t, rfl⟩
  | refused r => exact absurd hexec (exec_ne_refused i _ r)
  | fault f =>
    exfalso
    obtain ⟨-, ⟨a, d, hi⟩ | ⟨a, d, hi⟩⟩ | ⟨b, o, v, hi, houtside, -⟩ | ⟨b, o, v, hi, houtside, -⟩ | ⟨a, hi, hread, -⟩ :=
      exec_fault_cases hexec
    · exact hdivisor a 0 d (.inl hi) rfl
    · exact hdivisor a 0 d (.inr hi) rfl
    · have hinside := hbyte b o v hi
      have hout := (inBounds_false_iff s.memSize _ _).mp houtside
      omega
    · have hinside := hword b o v hi
      have hout := (inBounds_false_iff s.memSize _ _).mp houtside
      omega
    · exact hstring a hi ((readString_congr rfl rfl rfl).trans hread)

/-! ## Which space an instruction writes -/

/-- A conditional branch that moves `pc` moves it to its target (R71). -/
theorem branch_moves_pc_to_target {cond : Bool} {br : Branch} {s t : State} (h : complete (branchOn cond br s) = .next t)
    (hmoved : t.pc ≠ s.pc) : t.pc = s.pc + br.disp.toInt - 2 := by
  rw [complete_branchOn] at h
  cases h
  exact if_pos (by_contra fun hnot => hmoved (if_neg hnot))

/-- Settles O48: what is no control transfer leaves `pc`, and the four end with the target of R70. -/
theorem onlyControlTransferMovesPc : Obligations.OnlyControlTransferMovesPc := by
  intro i s t h hmoved
  obtain ⟨hkind, -⟩ | ⟨-, d, v, rfl⟩ | ⟨-, x, rfl⟩ | ⟨-, a, b, -, rfl⟩ | ⟨-, a, b, c, -, rfl⟩ | ⟨-, rfl⟩ := exec_next_cases h
  case inl =>
    obtain ⟨d, rfl⟩ | ⟨a, cs, ⟨d, p⟩, rfl⟩ | ⟨a, b, ⟨d, p⟩, rfl⟩ | ⟨a, b, ⟨d, p⟩, rfl⟩ := hkind
    · obtain rfl := (complete_next_iff _ t).mp h
      exact ⟨d, branchTarget_eq_toInt s.pc d, .inl rfl⟩
    · exact ⟨d, branch_moves_pc_to_target h hmoved, .inr (.inl ⟨a, cs, p, rfl⟩)⟩
    · exact ⟨d, branch_moves_pc_to_target h hmoved, .inr (.inr (.inl ⟨a, b, p, rfl⟩))⟩
    · exact ⟨d, branch_moves_pc_to_target h hmoved, .inr (.inr (.inr ⟨a, b, p, rfl⟩))⟩
  all_goals exact absurd rfl hmoved

/-- Settles O49: in each case of what an instruction can have done, one of the spaces differs and the others are as they were. -/
theorem eachInstructionWritesItsOwnSpace : Obligations.EachInstructionWritesItsOwnSpace := by
  intro i s t h
  obtain ⟨-, p, -, -, rfl⟩ | ⟨hkind, d, v, rfl⟩ | ⟨hkind, x, rfl⟩ | ⟨hkind, a, b, -, rfl⟩ | ⟨hkind, a, b, c, -, rfl⟩ | ⟨-, rfl⟩ :=
    exec_next_cases h
  · exact ⟨absurd rfl, absurd rfl, absurd rfl⟩
  · exact ⟨absurd rfl, fun _ => ⟨rfl, rfl, rfl, hkind⟩, absurd rfl⟩
  · exact ⟨absurd rfl, absurd rfl, fun _ => ⟨rfl, rfl, rfl, hkind⟩⟩
  · exact ⟨fun _ => ⟨rfl, rfl, rfl, .inl hkind⟩, absurd rfl, absurd rfl⟩
  · exact ⟨fun _ => ⟨rfl, rfl, rfl, .inr hkind⟩, absurd rfl, absurd rfl⟩
  · exact ⟨absurd rfl, absurd rfl, absurd rfl⟩

end Sys2Proof.Machine
end

section
/-!
What a step depends on (spec 10_state R10, R11): two runs whose inputs agree answer alike, for each way an instruction ends, for the
instruction and for the step, and the obligation assembled from them.
-/

namespace Sys2Proof.Machine

/-- From `s` and from `u` the same text is emitted, or none. -/
def SameEmission (s u t t' : State) : Prop :=
  (t.out = s.out ∧ t'.out = u.out) ∨ ∃ x, t.out = s.out ++ [x] ∧ t'.out = u.out ++ [x]

/-- From `s` and from `u` the same value is stored in the same variable, or none. -/
def SameStore (s u t t' : State) : Prop :=
  (t.vars = s.vars ∧ t'.vars = u.vars) ∨ ∃ d v, t.vars = (storeVar d v s).vars ∧ t'.vars = (storeVar d v u).vars

/-- Two results, of runs from `s` and from `u`, that differ in nothing but what the states already differed in. -/
def Alike (s u : State) (r r' : Result) : Prop :=
  (∀ t, r = .next t → ∃ t', r' = .next t' ∧ SameInputs t t' ∧ t.status = t'.status ∧ SameEmission s u t t' ∧ SameStore s u t t') ∧
    (∀ f, r = .fault f → r' = .fault f) ∧ (∀ q, r = .refused q → r' = .refused q)

section

variable {s u : State}

theorem alike_next {t t' : State} (hinputs : SameInputs t t') (hstatus : t.status = t'.status)
    (hout : SameEmission s u t t') (hvars : SameStore s u t t') : Alike s u (.next t) (.next t') :=
  ⟨fun _ h => by cases h; exact ⟨t', rfl, hinputs, hstatus, hout, hvars⟩, nofun, nofun⟩

theorem alike_fault (f : Fault) : Alike s u (.fault f) (.fault f) := ⟨nofun, fun _ h => h, nofun⟩

theorem alike_refused (q : Refusal) : Alike s u (.refused q) (.refused q) := ⟨nofun, nofun, fun _ h => h⟩

variable (h : SameInputs s u)
include h

theorem alike_setPc (p : Int) : Alike s u (complete (setPc p s)) (complete (setPc p u)) :=
  alike_next { h with pc := rfl } rfl (.inl ⟨rfl, rfl⟩) (.inl ⟨rfl, rfl⟩)

theorem alike_branchOn (cond : Bool) (br : Branch) : Alike s u (complete (branchOn cond br s)) (complete (branchOn cond br u)) := by
  rw [branchOn, branchOn, h.pc]
  split
  · exact alike_setPc h _
  · exact alike_next { h with } rfl (.inl ⟨rfl, rfl⟩) (.inl ⟨rfl, rfl⟩)

theorem alike_storeVar (d : VarRef) (v : Word16) : Alike s u (complete (storeVar d v s)) (complete (storeVar d v u)) :=
  alike_next { h with } rfl (.inl ⟨rfl, rfl⟩) (.inr ⟨d, v, rfl, rfl⟩)

theorem alike_storeUnit (result : Option Word16) (d : VarRef) : Alike s u (storeUnit result d s) (storeUnit result d u) := by
  cases result with
  | none => exact alike_fault .divideByZero
  | some v => exact alike_storeVar h d v

theorem alike_emit (x : Text) : Alike s u (complete (emit x s)) (complete (emit x u)) :=
  alike_next { h with } rfl (.inr ⟨x, rfl, rfl⟩) (.inl ⟨rfl, rfl⟩)

theorem alike_translateUnits (units : List SymbolUnit) :
    Alike s u (complete (emit (translateUnits units s) s)) (complete (emit (translateUnits units u) u)) := by
  rw [translateUnits_congr h.memSize h.mem]
  exact alike_emit h _

theorem alike_execPrintAddr (a : Word16) : Alike s u (execPrintAddr a s) (execPrintAddr a u) := by
  have hread : readString (a.toNat : Int) 0 s = readString (a.toNat : Int) 0 u := readString_congr h.memSize h.mem h.readerRows
  rw [execPrintAddr, execPrintAddr, hread]
  split
  · exact alike_fault _
  · exact alike_translateUnits h _

/-- A write to the image is rejected by its address alone, and leaves the same image in both runs. -/
theorem alike_write (a : Int) (n : Nat) (f : Fault) (write : Memory → Memory) :
    Alike s u (settle (if inBounds s.memSize a n then .ok { s with mem := write s.mem } else .error f))
      (settle (if inBounds u.memSize a n then .ok { u with mem := write u.mem } else .error f)) := by
  have hinside : inBounds s.memSize a n = inBounds u.memSize a n := by rw [h.memSize]
  rw [hinside]
  split
  · exact alike_next { h with mem := congrArg write h.mem } rfl (.inl ⟨rfl, rfl⟩) (.inl ⟨rfl, rfl⟩)
  · exact alike_fault f

theorem alike_writeByte (a : Int) (v : Word16) : Alike s u (settle (writeByte a v s)) (settle (writeByte a v u)) :=
  alike_write h a 1 (.outOfBounds a) fun m => Memory.write m a.toNat (v.extractLsb' 0 8)

theorem alike_writeWord (a : Int) (v : Word16) : Alike s u (settle (writeWord a v s)) (settle (writeWord a v u)) :=
  alike_write h a 2 (.outOfBounds a) fun m =>
    Memory.write (Memory.write m a.toNat (v.extractLsb' 8 8)) (a.toNat + 1) (v.extractLsb' 0 8)

theorem alike_completeUnimplemented : Alike s u (completeUnimplemented s) (completeUnimplemented u) :=
  alike_next { h with } rfl (.inl ⟨rfl, rfl⟩) (.inl ⟨rfl, rfl⟩)

theorem alike_exec (i : Instr) : Alike s u (exec i s) (exec i u) := by
  cases i with
  | jump d =>
    show Alike s u (complete (setPc (branchTarget s.pc d) s)) (complete (setPc (branchTarget u.pc d) u))
    rw [h.pc]
    exact alike_setPc h _
  | je a cs br => exact alike_branchOn h _ br
  | jg a b br => exact alike_branchOn h _ br
  | jl a b br => exact alike_branchOn h _ br
  | print x => exact alike_emit h x
  | printAddr a => exact alike_execPrintAddr h a
  | printChar unit => exact alike_translateUnits h [unit]
  | div a b d => exact alike_storeUnit h _ d
  | mod a b d => exact alike_storeUnit h _ d
  | add a b d => exact alike_storeVar h d _
  | sub a b d => exact alike_storeVar h d _
  | mul a b d => exact alike_storeVar h d _
  | not a d => exact alike_storeVar h d _
  | or a b d => exact alike_storeVar h d _
  | and a b d => exact alike_storeVar h d _
  | store d v => exact alike_storeVar h d v
  | storeb b o v => exact alike_writeByte h _ v
  | storew b o v => exact alike_writeWord h _ v
  | jin _ => exact alike_completeUnimplemented h
  | reserved19 _ => exact alike_completeUnimplemented h
  | reserved20to23 _ _ => exact alike_completeUnimplemented h
  | reserved24to31 _ _ => exact alike_completeUnimplemented h

/-- Where nothing is recorded and a transaction is presented, both runs fetch and decode the same (R12, R36). -/
theorem alike_step_of_presented {x : Transaction} {rest : List Transaction} (hrun : s.fault = none)
    (hinbox : s.inbox = x :: rest) : Alike s u (step s) (step u) := by
  have hrun' : u.fault = none := h.fault.symm.trans hrun
  have hinbox' : u.inbox = x :: rest := h.inbox.symm.trans hinbox
  by_cases hinside : 0 ≤ s.pc ∧ s.pc + (max 1 x.length : Nat) ≤ (s.memSize : Int)
  · have hfetch := fetch_of_inside hrun hinbox hinside.1 hinside.2
    rw [h.pc, h.memSize] at hinside
    have hfetch' := fetch_of_inside hrun' hinbox' hinside.1 hinside.2
    cases hdecode : decode x.bundle x.text with
    | error e =>
      rw [step_of_decode_error hfetch hdecode, step_of_decode_error hfetch' hdecode]
      exact alike_refused (.malformed e)
    | ok i =>
      rw [step_of_decode_ok hfetch hdecode, step_of_decode_ok hfetch' hdecode]
      have hfetched : SameInputs { s with pc := s.pc + (x.length : Int), inbox := rest }
          { u with pc := u.pc + (x.length : Int), inbox := rest } :=
        { h with pc := congrArg (· + (x.length : Int)) h.pc, inbox := rfl }
      exact alike_exec hfetched i
  · have hfetch := fetch_of_outside hrun hinbox (by omega)
    rw [h.pc, h.memSize] at hinside
    have hfetch' := fetch_of_outside hrun' hinbox' (by omega)
    rw [step_of_fetch_fault hfetch, step_of_fetch_fault hfetch', h.pc]
    exact alike_fault (.fetchOutOfBounds u.pc)

theorem alike_step : Alike s u (step s) (step u) := by
  cases hrun : s.fault with
  | some f =>
    rw [step_of_fetch_fault (fetch_of_fault hrun), step_of_fetch_fault (fetch_of_fault (h.fault.symm.trans hrun))]
    exact alike_fault f
  | none =>
    cases hinbox : s.inbox with
    | nil =>
      rw [step_of_nothing_presented hrun hinbox,
        step_of_nothing_presented (h.fault.symm.trans hrun) (h.inbox.symm.trans hinbox)]
      exact alike_refused .noTransaction
    | cons x rest => exact alike_step_of_presented h hrun hinbox

end

/-- Settles O54: the step of both runs is the same but for the fields that no step reads. -/
theorem stepDependsOnItsInputsAlone : Obligations.StepDependsOnItsInputsAlone :=
  fun _ _ h => alike_step h

end Sys2Proof.Machine
end
